-- ==== Sys2Proof/Word.lean ====
section
/-! DEFINITION. The widths of the block's values (rule R8) and their names. Every value is an unsigned bit vector (R9). -/

namespace Sys2Proof

/-- A completed frame, or the frame register: FRAME_BITS = 10 bits (R8). -/
abbrev Frame := BitVec 10

/-- A scan code: SCAN_BITS = 10 bits, a frame with bit 0 clear (R8, R78; conflict C1). -/
abbrev ScanCode := BitVec 10

/-- A modifier bitset: MOD_W = 8 bits (R8, R23). -/
abbrev ModSet := BitVec 8

/-- The index of a modifier's bit, 0 to MOD_W - 1 (R44, decision D7). -/
abbrev ModIndex := Fin 8

/-- A keycode: KEY_W = 8 bits, the value 0 meaning `none` (R8, R11). -/
abbrev Keycode := BitVec 8

/-- The keycode `none` (R11, decision D8). -/
abbrev noKey : Keycode := 0#8

/-- The 9-bit transport command word (R57): bit 8 is `tx_cmd`, bits 7 to 0 are `tx_arg`. -/
abbrev CmdWord := BitVec 9

/-- The value of the bit counter: 0 to 9 (R17, decision D20). -/
abbrev BitCount := Fin 10

end Sys2Proof
end

