-- ==== Sys2Proof/Syntax.lean ====
section
/-! DEFINITION. The operations of spec/opcode_table.json, the five encoded values of R51, the events of the environment
(R65, R68, R75 to R86, R121), and the stimulus notation (R60, R61). -/

namespace Sys2Proof

/-- The Processor's sequencing phase (R24). -/
inductive Phase where
  /-- polling for a new frame -/
  | idle
  /-- the modifier report is due -/
  | mods
  /-- the key-press report is due -/
  | keydn
  /-- the key-release report is due -/
  | keyup
deriving DecidableEq, Repr, Inhabited

/-- The operations of the block, one constructor per row of the opcode table (R62). -/
inductive Instr where
  /-- EDGE (R65): one falling edge of `kbd_clk`; `d` is the bit sampled from `kbd_data`. -/
  | edge (d : BitVec 1)
  /-- RESET (R121). -/
  | reset
  /-- POLL (R75). -/
  | poll
  /-- TAKE.PRESS (R76): the frame taken has bit 0 clear; `scHi` is its field `f[9:1]` (R52). -/
  | takePress (scHi : BitVec 9)
  /-- TAKE.RELEASE (R76): the frame taken has bit 0 set; `scHi` is its field `f[9:1]` (R52). -/
  | takeRelease (scHi : BitVec 9)
  /-- EMIT.MODS (R83): the transport accepts the modifier report. -/
  | emitMods
  /-- EMIT.KEYDN (R84): the transport accepts the key-press report. -/
  | emitKeydn
  /-- EMIT.KEYUP (R85): the transport accepts the key-release report. -/
  | emitKeyup
  /-- HOLD (R86): the transport does not accept; `p` is the phase held. -/
  | hold (p : Phase)
  /-- SET_MODS (R98): an accepted command, `m` the whole modifier bitset. -/
  | setMods (m : ModSet)
  /-- SET_KEY (R99): an accepted command with a keycode. -/
  | setKey (k : Keycode)
  /-- SET_KEY.NONE (R99): the accepted SET_KEY with keycode `none`. -/
  | setKeyNone
deriving DecidableEq, Repr, Inhabited

/-- The five formats of R51. "No other encoded value exists" in the block. -/
inductive Format where
  | edge
  | frame
  | phase
  | cmd
  | signal
deriving DecidableEq, Repr, Inhabited

/-- An encoded value, as it is presented to the decoder. A phase value comes with `tx_ready`, which selects between the
report and the hold (R55). -/
inductive Encoded where
  | edge (d : BitVec 1)
  | frame (f : Frame)
  | phase (p : BitVec 2) (txReady : Bool)
  | cmd (w : CmdWord)
  | signal (rst : BitVec 1)
deriving DecidableEq, Repr, Inhabited

/-- What the environment can do in one step (R12, R104, R114). -/
inductive Event where
  /-- a falling edge of `kbd_clk` with `kbd_data = d` (R65) -/
  | kbdFall (d : BitVec 1)
  /-- a rising edge of `kbd_clk` (R68) -/
  | kbdRise
  /-- one `clk` of the Processor, with the level the transport gives `tx_ready` (R75 to R86) -/
  | clk (txReady : Bool)
  /-- the reset input `rst` takes a level (R121, R125) -/
  | rst (level : Bool)
deriving DecidableEq, Repr, Inhabited

/-- A line of the stimulus notation: the primitive lines of R60 and the pseudo-lines of R61. -/
inductive Line where
  | edge (d : BitVec 1)
  | step
  | stall
  | reset
  | frame (f : Frame)
  | run
  | press (f : Frame)
  | release (f : Frame)
deriving DecidableEq, Repr, Inhabited

end Sys2Proof
end

