-- ==== Sys2Proof/Config.lean ====
section
/-! DEFINITION. What an implementation fixes (the parameters of R8 that the source leaves open) and the free values. -/

namespace Sys2Proof

/-- The configuration of R8, R44 and R101: static, read-only, supplied externally. Written so that `COUNT_W >= 1` (R8) and
`WF_MOD_INDEX` (R47) hold by construction; a raw configuration is checked in Machine/Boot.lean. -/
structure Config where
  /-- `COUNT_W - 1`, the index of the event counter's top bit (R8, decision D3) -/
  topCountBit : Nat
  /-- `REG_TABLE`: pairs (key, keycode), searched first match first (R44) -/
  regTable : List (ScanCode × Keycode)
  /-- `MOD_TABLE`: pairs (key, bit index), searched first match first (R44) -/
  modTable : List (ScanCode × ModIndex)
  /-- the initial host-visible modifier bitset `ms` (R101, decision D22) -/
  hostMods : ModSet
  /-- the initial host-visible key slot `ks` (R101, decision D22) -/
  hostKey : Keycode
deriving DecidableEq, Repr, Inhabited

/-- `COUNT_W`, the width of the event counter (R8). -/
def Config.countW (c : Config) : Nat := c.topCountBit + 1

/-- DESIGN CHOICE (log 3). The configuration of the machine at hand: a parameter of the spec (R8), so a constant without a
body: what is proved of `State.reset` holds for every configuration. -/
opaque Config.installed : Config

/-- DESIGN CHOICE (log 1). The environment's `n`-th free choice: any event may come next (R12, R104), and the sampled bit
is a free draw (R65, decision D15). A constant without a body: nothing is provable about its values. -/
opaque Config.freeEvent : Nat → Event

end Sys2Proof
end

