-- ==== Sys2Proof/Machine/State.lean ====
section
/-! DEFINITION. The machine's state, all of it plain data; the reasons a step can stop; the state right after reset. -/

namespace Sys2Proof.Machine

/-- The state. The nine registers are those of R15, "exactly the nine registers below, and nothing else"; the fields after
them are the configuration, the reset input's level, what R33, R97 and R101 have observed, and the model's own stimulus. -/
structure State where
  /-- `sr`, the frame register, first-received bit highest (R16) -/
  sr : Frame
  /-- `bc`, the bits shifted in since the last frame (R17) -/
  bc : BitCount
  /-- `led`, the progress indicator and the pin it drives (R18) -/
  led : Bool
  /-- `hc_frame`, the completed frame of the handoff cell (R19) -/
  hcFrame : Frame
  /-- `hc_count`, the event counter of the handoff cell, modulo `2 ^ COUNT_W` (R20) -/
  hcCount : Nat
  /-- `last_seen`, the count of the last frame taken (R21) -/
  lastSeen : Nat
  /-- `mods`, the modifiers held (R23) -/
  mods : ModSet
  /-- `phase`, the Processor's sequencing register (R24) -/
  phase : Phase
  /-- `pend_key`, the keycode of the frame being processed, or `none` (R25) -/
  pendKey : Keycode
  /-- the configuration, which no step changes (R44, R104; log 3) -/
  cfg : Config
  /-- the level of the input `rst` (R32, R121) -/
  rst : Bool
  /-- the output trace: the accepted command words, oldest first (R97) -/
  trace : List CmdWord
  /-- `ms`, the transport's host-visible modifier bitset (R101) -/
  ms : ModSet
  /-- `ks`, the transport's host-visible key slot (R101) -/
  ks : Keycode
  /-- the reports (`ms`, `ks`) the transport has transmitted, oldest first (R101, R102) -/
  reports : List (ModSet × Keycode)
  /-- the model's own: the events still to come, in order (R60; log 1) -/
  stimulus : List Event
  /-- the model's own: the index of the next free event, for when the stimulus is empty (log 1) -/
  draws : Nat
deriving DecidableEq, Repr

/-- The faults: none. "The model has no fault outcome" (R110), "The block raises no exception" (R108): nothing raises a
fault, so the type has no constructor. -/
inductive Fault where
deriving DecidableEq, Repr

/-- The refusals. -/
inductive Refusal where
  /-- An operation without a meaning yet. Raised by an arm of exec only; no arm does so now. Safe: it stops. -/
  | notModelled (mnemonic : String)
  /-- A Processor operation executed at a state that selects another one (R55, the operation's own condition: POLL, TAKE,
  EMIT, HOLD). Raised by exec, never by step (log 6). Safe: it stops where no rule gives the operation an effect. -/
  | notSelected
  /-- A value that is no operation was presented to the step. Raised by step on a value the decoder rejects; no event
  presents one. Safe: it stops. -/
  | notAnOperation
  /-- A raw configuration fails WF_MOD_INDEX (R47, R110). Raised by boot. Safe: the spec refuses it. -/
  | modIndexTooLarge
  /-- A raw configuration has COUNT_W = 0 (R8: "COUNT_W >= 1"; log 5). Raised by boot. Safe: it stops. -/
  | countWidthZero
deriving DecidableEq, Repr

/-- What a step or an operation answers. -/
abbrev Answer := Host.Outcome State Fault Refusal

/-- The state right after reset under a configuration (R15, R121, R125): the nine registers at their reset values and `rst`
low. The slots are the configuration's (R101); nothing has been emitted, and no stimulus is placed. -/
def State.resetWith (c : Config) : State where
  sr := 0x000#10
  bc := 0
  led := false
  hcFrame := 0x000#10
  hcCount := 0
  lastSeen := 0
  mods := 0x00#8
  phase := .idle
  pendKey := noKey
  cfg := c
  rst := false
  trace := []
  ms := c.hostMods
  ks := c.hostKey
  reports := []
  stimulus := []
  draws := 0

/-- The machine right after reset, under the configuration at hand. -/
def State.reset : State := State.resetWith Config.installed

end Sys2Proof.Machine
end

