-- ==== Sys2Proof/Machine/Flags.lean ====
section
/-! DEFINITION. The flags: `led` is the only stored one (R28). The release flag lives in the take alone (Decode.relFlag). -/

namespace Sys2Proof.Machine

/-- `led` after a shifting edge: "if bc == 0 then led <- 1", else unchanged (R66). -/
def ledAfterShift (bc : BitCount) (led : Bool) : Bool := if bc.val = 0 then true else led

/-- `led` after a completing edge: 0 (R67). -/
def ledAfterComplete : Bool := false

end Sys2Proof.Machine
end

