-- ==== Sys2Proof/WellFormed.lean ====
section
/-! DEFINITION. Which operations are well-formed: each stands for exactly one row of the opcode table. -/

namespace Sys2Proof

/-- HOLD exists outside `IDLE` only (R86: "phase in {MODS, KEYDN, KEYUP}"; opcode table: `p != 0b00`), and the SET_KEY
with keycode `none` is the row SET_KEY.NONE (opcode table: "a sub-case of SET_KEY"; log 7). Every other operand value is
admitted: no frame, edge value or command word is illegal (R56, R58). -/
def Instr.wellFormed : Instr → Bool
  | .hold p => p != .idle
  | .setKey k => k != noKey
  | .edge _ => true
  | .reset => true
  | .poll => true
  | .takePress _ => true
  | .takeRelease _ => true
  | .emitMods => true
  | .emitKeydn => true
  | .emitKeyup => true
  | .setMods _ => true
  | .setKeyNone => true

end Sys2Proof
end

