-- ==== Sys2Proof/Decode.lean ====
section
/-! DEFINITION. The decoder, total on every encoded value and on every number offered as one, rejecting by name; after it
the encoder and the opcode table's rows. Field positions are those of R52, R54 and R57. -/

namespace Sys2Proof

/-- Why a value is no operation. -/
inductive DecodeError where
  /-- the number does not fit the format's width (R51, R59) -/
  | tooWide
  /-- `rst = 0`: the signal row matches `rst = 1` only (R121, R125) -/
  | signalLow
deriving DecidableEq, Repr

/-- The encodings of the phases (R24): 0b00, 0b01, 0b10, 0b11. -/
def Phase.bits : Phase → BitVec 2
  | .idle => 0b00#2
  | .mods => 0b01#2
  | .keydn => 0b10#2
  | .keyup => 0b11#2

/-- The widths of the five formats (R51). -/
def Format.width : Format → Nat
  | .edge => 1
  | .frame => 10
  | .phase => 2
  | .cmd => 9
  | .signal => 1

/-- The format of an encoded value. -/
def Encoded.format : Encoded → Format
  | .edge _ => .edge
  | .frame _ => .frame
  | .phase _ _ => .phase
  | .cmd _ => .cmd
  | .signal _ => .signal

/-- The bits of an encoded value as a number, bit 0 the least significant. -/
def Encoded.toNat : Encoded → Nat
  | .edge d => d.toNat
  | .frame f => f.toNat
  | .phase p _ => p.toNat
  | .cmd w => w.toNat
  | .signal r => r.toNat

/-- The release flag of a frame, `rel = f[0]` (R52, R77). -/
def relFlag (f : Frame) : Bool := f.getLsbD 0

/-- The scan code of a frame, `sc = f & 0x3FE` (R54, R78). -/
def scanCode (f : Frame) : ScanCode := f &&& 0x3FE#10

/-- The field `f[9:1]` of a frame (R52). -/
def upperBits (f : Frame) : BitVec 9 := f.extractLsb' 1 9

/-- The frame with a given release bit and field `f[9:1]` (R52, R54). -/
def frameOf (scHi : BitVec 9) (rel : BitVec 1) : Frame := scHi ++ rel

/-- The field `tx_cmd` of a command word, bit 8 (R57). -/
def cmdBit (w : CmdWord) : Bool := w.getLsbD 8

/-- The field `tx_arg` of a command word, bits 7 to 0 (R57). -/
def cmdArg (w : CmdWord) : BitVec 8 := w.extractLsb' 0 8

/-- The command word `{tx_cmd, tx_arg}` (R57). -/
def cmdWord (cmd : BitVec 1) (arg : BitVec 8) : CmdWord := cmd ++ arg

/-- The phase a 2-bit value encodes (R24); all four values are used. -/
def phaseOf (p : BitVec 2) : Phase :=
  if p = 0b00#2 then .idle else if p = 0b01#2 then .mods else if p = 0b10#2 then .keydn else .keyup

/-- A phase value with `tx_ready` (R55): IDLE polls (a take is presented as its frame), the other three report when the
transport accepts and hold when it does not. -/
def decodePhase (p : Phase) (txReady : Bool) : Instr :=
  match p, txReady with
  | .idle, _ => .poll
  | .mods, true => .emitMods
  | .keydn, true => .emitKeydn
  | .keyup, true => .emitKeyup
  | p, false => .hold p

/-- A frame: TAKE.RELEASE when bit 0 is set, TAKE.PRESS when it is clear (R76, opcode table). All 1024 frames are accepted
(R56). -/
def decodeFrame (f : Frame) : Instr :=
  if relFlag f then .takeRelease (upperBits f) else .takePress (upperBits f)

/-- A command word (R57, R58): bit 8 clear is SET_MODS, 0x100 is SET_KEY.NONE, any other word with bit 8 set is
SET_KEY. -/
def decodeCmd (w : CmdWord) : Instr :=
  if cmdBit w then (if cmdArg w = noKey then .setKeyNone else .setKey (cmdArg w)) else .setMods (cmdArg w)

/-- The decoder: total on the five formats. -/
def decode : Encoded → Except DecodeError Instr
  | .edge d => .ok (.edge d)
  | .frame f => .ok (decodeFrame f)
  | .phase p txReady => .ok (decodePhase (phaseOf p) txReady)
  | .cmd w => .ok (decodeCmd w)
  | .signal r => if r = 1#1 then .ok .reset else .error .signalLow

/-- A number read as a value of a format, `tx_ready` at the level `txReady`; a number wider than the format is rejected. -/
def Encoded.ofNat (fmt : Format) (txReady : Bool) (w : Nat) : Except DecodeError Encoded :=
  if w < 2 ^ fmt.width then
    .ok (match fmt with
      | .edge => .edge (BitVec.ofNat 1 w)
      | .frame => .frame (BitVec.ofNat 10 w)
      | .phase => .phase (BitVec.ofNat 2 w) txReady
      | .cmd => .cmd (BitVec.ofNat 9 w)
      | .signal => .signal (BitVec.ofNat 1 w))
  else .error .tooWide

/-- The decoder on a format and any number. -/
def decodeNat (fmt : Format) (txReady : Bool) (w : Nat) : Except DecodeError Instr :=
  match Encoded.ofNat fmt txReady w with
  | .error e => .error e
  | .ok v => decode v

/-- The encoder: the encoded value of an operation (R51, R52, R57, opcode table). -/
def encode : Instr → Encoded
  | .edge d => .edge d
  | .reset => .signal 1#1
  | .poll => .phase 0b00#2 true
  | .takePress scHi => .frame (frameOf scHi 0#1)
  | .takeRelease scHi => .frame (frameOf scHi 1#1)
  | .emitMods => .phase 0b01#2 true
  | .emitKeydn => .phase 0b10#2 true
  | .emitKeyup => .phase 0b11#2 true
  | .hold p => .phase p.bits false
  | .setMods m => .cmd (cmdWord 0#1 m)
  | .setKey k => .cmd (cmdWord 1#1 k)
  | .setKeyNone => .cmd 0x100#9

/-- A row of spec/opcode_table.json: its format, the bits it fixes and their values. -/
structure Row where
  format : Format
  mask : Nat
  pattern : Nat
deriving DecidableEq, Repr

/-- The row of each operation, copied from spec/opcode_table.json (EDGE and HOLD fix no bit). -/
def Instr.row : Instr → Row
  | .edge _ => ⟨.edge, 0x0, 0x0⟩
  | .reset => ⟨.signal, 0x1, 0x1⟩
  | .poll => ⟨.phase, 0x3, 0x0⟩
  | .takePress _ => ⟨.frame, 0x001, 0x000⟩
  | .takeRelease _ => ⟨.frame, 0x001, 0x001⟩
  | .emitMods => ⟨.phase, 0x3, 0x1⟩
  | .emitKeydn => ⟨.phase, 0x3, 0x2⟩
  | .emitKeyup => ⟨.phase, 0x3, 0x3⟩
  | .hold _ => ⟨.phase, 0x0, 0x0⟩
  | .setMods _ => ⟨.cmd, 0x100, 0x000⟩
  | .setKey _ => ⟨.cmd, 0x100, 0x100⟩
  | .setKeyNone => ⟨.cmd, 0x1FF, 0x100⟩

/-- An encoded value matches a row: same format, and the row's fixed bits have the row's values. -/
def Row.matches (r : Row) (v : Encoded) : Bool :=
  v.format == r.format && v.toNat &&& r.mask == r.pattern

/-- The formats a table word of `nbits` bits is read in, the first that the word fits. A table word carries no format, so
one number can stand for several rows: an exact width names its format, one byte is read as a phase and else as a frame
whose upper bits are 0, and two bytes as a command word and else as a frame (log 10). -/
def tableFormats (nbits : Nat) : List Format :=
  if nbits = 1 then [.edge]
  else if nbits = 10 then [.frame]
  else if nbits ≤ 8 then [.phase, .frame]
  else [.cmd, .frame]

/-- The first format of a list in which a number decodes, the transport accepting (`tx_ready = 1`). -/
def decodeFirst (w : Nat) : List Format → Option Instr
  | [] => none
  | fmt :: fmts =>
    match decodeNat fmt true w with
    | .ok i => some i
    | .error _ => decodeFirst w fmts

/-- The operation the decoder reads from a table word of `nbits` bits. -/
def decodeTableWord (nbits w : Nat) : Option Instr := decodeFirst w (tableFormats nbits)

end Sys2Proof
end

