-- ==== Sys2Proof/Machine/Operands.lean ====
section
/-! DEFINITION. What the operations compute with: the shifted frame, the table lookups, the modifier bits, and the word the
Processor offers. A frame's own fields (release flag, scan code) are in Decode.lean. -/

namespace Sys2Proof.Machine

/-- `((sr << 1) | d)[9:0]` (R66, R67). -/
def shifted (sr : Frame) (d : BitVec 1) : Frame := (sr <<< 1) ||| d.setWidth 10

/-- `ModLookup(sc)`: the index of the first entry whose key equals `sc` (R45). -/
def modLookup : List (ScanCode × ModIndex) → ScanCode → Option ModIndex
  | [], _ => none
  | (key, i) :: rest, sc => if key = sc then some i else modLookup rest sc

/-- `RegLookup(sc)`: the keycode of the first entry whose key equals `sc`, or `none` (R46). -/
def regLookup : List (ScanCode × Keycode) → ScanCode → Keycode
  | [], _ => noKey
  | (key, k) :: rest, sc => if key = sc then k else regLookup rest sc

/-- `1 << i` at the width of the modifier bitset. -/
def modBit (i : ModIndex) : ModSet := 1#8 <<< i.val

/-- The modifier update of a press: `mods | (1 << i)` for the entry found, else unchanged (R76, R79). -/
def modsAfterPress (table : List (ScanCode × ModIndex)) (sc : ScanCode) (mods : ModSet) : ModSet :=
  match modLookup table sc with
  | some i => mods ||| modBit i
  | none => mods

/-- The modifier update of a release: `mods & ~(1 << i)` for the entry found, else unchanged (R76, R79). -/
def modsAfterRelease (table : List (ScanCode × ModIndex)) (sc : ScanCode) (mods : ModSet) : ModSet :=
  match modLookup table sc with
  | some i => mods &&& ~~~(modBit i)
  | none => mods

/-- `tx_valid = (phase != IDLE)` (R87). -/
def State.txValid (s : State) : Bool := s.phase != .idle

/-- `tx_cmd = (phase != MODS)` (R87). -/
def State.txCmd (s : State) : BitVec 1 := if s.phase = .mods then 0#1 else 1#1

/-- `tx_arg`: `zext_8(mods)` in MODS, `pend_key` in KEYDN, 0 otherwise (R87). -/
def State.txArg (s : State) : BitVec 8 :=
  match s.phase with
  | .mods => s.mods
  | .keydn => s.pendKey
  | .keyup => noKey
  | .idle => 0#8

/-- The word on the command port, `{tx_cmd, tx_arg}` (R57). -/
def State.txWord (s : State) : CmdWord := cmdWord s.txCmd s.txArg

/-- The word SET_MODS(m) (R57, R98). -/
def setModsWord (m : ModSet) : CmdWord := cmdWord 0#1 m

/-- The word SET_KEY(k) (R57, R99). -/
def setKeyWord (k : Keycode) : CmdWord := cmdWord 1#1 k

end Sys2Proof.Machine
end

