-- ==== Sys2Proof/Machine/Ops.lean ====
section
/-! DEFINITION. The named operations over the registers, the handoff cell, the command port and the stimulus. The block
raises no exception (R108), takes no trap and returns from none (R112, R113), so no such operation stands here; and it has
no addressable memory (R35). -/

namespace Sys2Proof.Machine

/-- The event counter's successor: `count + 1` modulo `2 ^ COUNT_W` (R20, R40). -/
def nextCount (c : Config) (count : Nat) : Nat := (count + 1) % 2 ^ c.countW

/-- `Publish(f)`: the frame and the count, together (R40). -/
def State.publish (f : Frame) (s : State) : State :=
  { s with hcFrame := f, hcCount := nextCount s.cfg s.hcCount }

/-- `Snapshot()`: the pair, as it stands between two steps (R41). -/
def State.snapshot (s : State) : Frame × Nat := (s.hcFrame, s.hcCount)

/-- A new frame is there: `Snapshot().count != last_seen` (R75, R76). -/
def State.newFrame (s : State) : Bool := s.snapshot.2 != s.lastSeen

/-- The shifting step of the Sampler (R66). -/
def State.shiftIn (d : BitVec 1) (s : State) : State :=
  { s with sr := shifted s.sr d, bc := s.bc + 1, led := ledAfterShift s.bc s.led }

/-- The completing step of the Sampler (R67). -/
def State.completeFrame (d : BitVec 1) (s : State) : State :=
  { s.publish (shifted s.sr d) with sr := 0x000#10, bc := 0, led := ledAfterComplete }

/-- The Sampler's step, selected by `bc` (R55, R65). -/
def State.sample (d : BitVec 1) (s : State) : State :=
  if s.bc.val < 9 then s.shiftIn d else s.completeFrame d

/-- A take writes `last_seen`, `mods`, `pend_key` and `phase`, and nothing else (R76). -/
def State.taken (count : Nat) (mods : ModSet) (key : Keycode) (s : State) : State :=
  { s with lastSeen := count, mods := mods, pendKey := key, phase := .mods }

/-- `Emit`: the accepted word is appended once to the trace, and the Processor leaves the offering phase (R97). -/
def State.emit (w : CmdWord) (p : Phase) (s : State) : State :=
  { s with trace := s.trace ++ [w], phase := p }

/-- The transport sets its slots and transmits the report (R100, R101). -/
def State.transmit (m : ModSet) (k : Keycode) (s : State) : State :=
  { s with ms := m, ks := k, reports := s.reports ++ [(m, k)] }

/-- The nine registers at their reset values (R15, R121). -/
def State.resetRegisters (s : State) : State :=
  { s with
    sr := 0x000#10, bc := 0, led := false, hcFrame := 0x000#10, hcCount := 0
    lastSeen := 0, mods := 0x00#8, phase := .idle, pendKey := noKey }

/-- A Processor step: none occurs while `rst` is 1 (R114, R121); else its effect where its condition holds, and a refusal
where the state selects another operation (log 6). -/
def processorStep (s : State) (selected : Bool) (after : State) : Answer :=
  if s.rst then .next s else if selected then .next after else .refused .notSelected

/-- The condition of the two takes: IDLE, a new frame, and the snapshot's frame is `f` (R76). -/
def State.takeSelected (f : Frame) (s : State) : Bool :=
  s.phase == .idle && s.newFrame && s.snapshot.1 == f

/-- The event of this step: the head of the stimulus, or a free one when it is empty (R12, R60; log 1). -/
def State.nextEvent (s : State) : Event :=
  match s.stimulus with
  | e :: _ => e
  | [] => Config.freeEvent s.draws

/-- The state once the event of this step is drawn. -/
def State.afterDraw (s : State) : State :=
  match s.stimulus with
  | _ :: rest => { s with stimulus := rest }
  | [] => { s with draws := s.draws + 1 }

/-- The reset input follows an event of its own; no other event moves it (R121, R125). -/
def State.applyPins (e : Event) (s : State) : State :=
  match e with
  | .rst level => { s with rst := level }
  | .kbdFall _ => s
  | .kbdRise => s
  | .clk _ => s

/-- The state in which this step's operation is executed: its event drawn, the reset input set. -/
def State.ready (s : State) : State := s.afterDraw.applyPins s.nextEvent

/-- What a `clk` presents to the decoder while `rst` is 0 (R55): in IDLE the phase, or the snapshot's frame when it is new;
elsewhere the phase with `tx_ready`, and, when the transport accepts, the offered word for the transport (R97). -/
def State.clockPresents (txReady : Bool) (s : State) : List Encoded :=
  if s.phase = .idle then
    if s.newFrame then [.frame s.snapshot.1] else [.phase s.phase.bits txReady]
  else if txReady then [.phase s.phase.bits true, .cmd s.txWord]
  else [.phase s.phase.bits false]

/-- What an event presents to the decoder (R55). A rising edge takes no step (R68); while `rst` is 1 edges and `clk`s take
none (R72, R121); the fall of `rst` is no operation (R125). -/
def State.presents (e : Event) (s : State) : List Encoded :=
  match e with
  | .kbdRise => []
  | .rst level => if level then [.signal 1#1] else []
  | .kbdFall d => if s.rst then [] else [.edge d]
  | .clk txReady => if s.rst then [] else s.clockPresents txReady

/-- Put an event before the stimulus. -/
def State.place (e : Event) (s : State) : State := { s with stimulus := e :: s.stimulus }

/-- A count in the counter's range that differs from `hc_count` (COUNT_W >= 1). -/
def State.otherCount (s : State) : Nat := if s.hcCount = 0 then 1 else 0

/-- The state whose very next step runs an operation: its event placed, and the registers that select it set (log 2). A
transport command is run by the report that offers its word. -/
def State.presenting (i : Instr) (s : State) : State :=
  match i with
  | .edge d => { s with rst := false }.place (.kbdFall d)
  | .reset => s.place (.rst true)
  | .poll => { s with rst := false, phase := .idle, lastSeen := s.hcCount }.place (.clk true)
  | .takePress scHi =>
      { s with rst := false, phase := .idle, hcFrame := frameOf scHi 0#1, lastSeen := s.otherCount }.place (.clk true)
  | .takeRelease scHi =>
      { s with rst := false, phase := .idle, hcFrame := frameOf scHi 1#1, lastSeen := s.otherCount }.place (.clk true)
  | .emitMods => { s with rst := false, phase := .mods }.place (.clk true)
  | .emitKeydn => { s with rst := false, phase := .keydn }.place (.clk true)
  | .emitKeyup => { s with rst := false, phase := .keyup }.place (.clk true)
  | .hold p => { s with rst := false, phase := p }.place (.clk false)
  | .setMods m => { s with rst := false, phase := .mods, mods := m }.place (.clk true)
  | .setKey k => { s with rst := false, phase := .keydn, pendKey := k }.place (.clk true)
  | .setKeyNone => { s with rst := false, phase := .keyup }.place (.clk true)

end Sys2Proof.Machine
end

