-- ==== Sys2Proof/Machine/Processor.lean ====
section
/-! DEFINITION. The Key Event Processor: POLL, TAKE.PRESS, TAKE.RELEASE, EMIT.MODS, EMIT.KEYDN, EMIT.KEYUP, HOLD
(41_processor.md). -/

namespace Sys2Proof.Machine

/-- POLL (R75): in IDLE with no new frame, no state change. -/
def execPoll (s : State) : Answer :=
  processorStep s (s.phase == .idle && !s.newFrame) s

/-- TAKE.PRESS (R76): the modifier bit of the scan code is set (R79), the regular table is looked up whether or not it is
a modifier (R81, R92), and the modifier report is next (R80). -/
def execTakePress (scHi : BitVec 9) (s : State) : Answer :=
  let f := frameOf scHi 0#1
  let sc := scanCode f
  processorStep s (s.takeSelected f)
    (s.taken s.snapshot.2 (modsAfterPress s.cfg.modTable sc s.mods) (regLookup s.cfg.regTable sc))

/-- TAKE.RELEASE (R76): the modifier bit of the scan code is cleared (R79), no key report follows (R82), and the modifier
report is next (R80). -/
def execTakeRelease (scHi : BitVec 9) (s : State) : Answer :=
  let f := frameOf scHi 1#1
  let sc := scanCode f
  processorStep s (s.takeSelected f)
    (s.taken s.snapshot.2 (modsAfterRelease s.cfg.modTable sc s.mods) noKey)

/-- EMIT.MODS (R83): SET_MODS(mods) is emitted; a key to tap leads to KEYDN, else the frame is done. -/
def execEmitMods (s : State) : Answer :=
  processorStep s (s.phase == .mods)
    (s.emit (setModsWord s.mods) (if s.pendKey != noKey then .keydn else .idle))

/-- EMIT.KEYDN (R84): SET_KEY(pend_key) is emitted. -/
def execEmitKeydn (s : State) : Answer :=
  processorStep s (s.phase == .keydn) (s.emit (setKeyWord s.pendKey) .keyup)

/-- EMIT.KEYUP (R85): SET_KEY(none) is emitted; `pend_key` keeps its value. -/
def execEmitKeyup (s : State) : Answer :=
  processorStep s (s.phase == .keyup) (s.emit (setKeyWord noKey) .idle)

/-- HOLD (R86): no state change; the same command stays offered. -/
def execHold (p : Phase) (s : State) : Answer :=
  processorStep s (p != .idle && s.phase == p) s

end Sys2Proof.Machine
end

