-- ==== Sys2Proof/Machine/Sampler.lean ====
section
/-! DEFINITION. The Frame Sampler: EDGE (40_sampler.md). -/

namespace Sys2Proof.Machine

/-- EDGE d (R65): R66 below nine bits, R67 at the tenth; while `rst` is 1 the edge takes no step and its bit is lost
(R72). -/
def execEdge (d : BitVec 1) (s : State) : Answer :=
  if s.rst then .next s else .next (s.sample d)

end Sys2Proof.Machine
end

