-- ==== Sys2Proof/Machine/System.lean ====
section
/-! DEFINITION. The one system operation, RESET (70_reset_and_hazards.md, R121). -/

namespace Sys2Proof.Machine

/-- RESET (R121): every register takes its reset value. No command is emitted; the transport's slots, the trace and the
configuration stay (R124, R126). -/
def execReset (s : State) : Answer := .next s.resetRegisters

end Sys2Proof.Machine
end

