-- ==== Sys2Proof/Machine/Transport.lean ====
section
/-! DEFINITION. The transport commands SET_MODS, SET_KEY and SET_KEY.NONE: what an accepted word does to the host-visible
slots (42_transport.md, R98 to R101). They write no register of the block. -/

namespace Sys2Proof.Machine

/-- SET_MODS(m) (R98, R101): `ms <- m`, then the report (`ms`, `ks`) is transmitted. -/
def execSetMods (m : ModSet) (s : State) : Answer := .next (s.transmit m s.ks)

/-- SET_KEY(k) (R99, R101): `ks <- k`, then the report (`ms`, `ks`) is transmitted. -/
def execSetKey (k : Keycode) (s : State) : Answer := .next (s.transmit s.ms k)

/-- SET_KEY(none) (R99, R101): the key slot is cleared, then the report is transmitted. -/
def execSetKeyNone (s : State) : Answer := .next (s.transmit s.ms noKey)

end Sys2Proof.Machine
end

