-- ==== Sys2Proof/Machine/Dispatch.lean ====
section
/-! DEFINITION. One arm per operation of the opcode table. -/

namespace Sys2Proof.Machine

def exec (i : Instr) (s : State) : Host.Outcome State Fault Refusal :=
  match i with
  | .edge d => Sys2Proof.Machine.execEdge d s
  | .reset => Sys2Proof.Machine.execReset s
  | .poll => Sys2Proof.Machine.execPoll s
  | .takePress scHi => Sys2Proof.Machine.execTakePress scHi s
  | .takeRelease scHi => Sys2Proof.Machine.execTakeRelease scHi s
  | .emitMods => Sys2Proof.Machine.execEmitMods s
  | .emitKeydn => Sys2Proof.Machine.execEmitKeydn s
  | .emitKeyup => Sys2Proof.Machine.execEmitKeyup s
  | .hold p => Sys2Proof.Machine.execHold p s
  | .setMods m => Sys2Proof.Machine.execSetMods m s
  | .setKey k => Sys2Proof.Machine.execSetKey k s
  | .setKeyNone => Sys2Proof.Machine.execSetKeyNone s

end Sys2Proof.Machine
end

