-- ==== Sys2Proof/Machine/Step.lean ====
section
/-! DEFINITION. One atomic step (R11, R12): the environment's event is drawn, what it presents is decoded, and the
operations decoded are executed in order. -/

namespace Sys2Proof.Machine

/-- Decode and execute the presented values in order: at most two, a report and the word the transport accepts with it. -/
def runPresented : List Encoded → State → Host.Outcome State Fault Refusal
  | [], s => .next s
  | v :: vs, s =>
    match decode v with
    | .error _ => .refused .notAnOperation
    | .ok i =>
      match exec i s with
      | .next t => runPresented vs t
      | .fault r => .fault r
      | .refused r => .refused r

/-- One step of the machine. -/
def step (s : State) : Host.Outcome State Fault Refusal :=
  runPresented (s.ready.presents s.nextEvent) s.ready

/-- `s` with the operation of a table word made the one the very next step runs (log 2); a word that is no operation
changes nothing. -/
def State.withFetchWord (s : State) (nbits w : Nat) : State :=
  match decodeTableWord nbits w with
  | some i => s.presenting i
  | none => s

end Sys2Proof.Machine
end

