-- ==== Sys2Proof/Machine/Boot.lean ====
section
/-! DEFINITION. Boot: a configuration is checked before the block runs (R47, R110, R126), and the three table properties of
R47 are named. -/

namespace Sys2Proof.Machine

/-- A configuration as it is supplied: any COUNT_W, any modifier index. -/
structure RawConfig where
  countW : Nat
  regTable : List (ScanCode × Keycode)
  modTable : List (ScanCode × Nat)
  hostMods : ModSet
  hostKey : Keycode
deriving DecidableEq, Repr, Inhabited

/-- `WF_MOD_INDEX`: every index is below MOD_W (R47). -/
def wfModIndex (r : RawConfig) : Bool := r.modTable.all fun e => decide (e.2 < 8)

/-- `WF_DISJOINT`: no key is in both tables (R47). A premise of claims, not a check (R92). -/
def wfDisjoint (c : Config) : Bool :=
  c.regTable.all fun r => c.modTable.all fun m => r.1 != m.1

/-- No key is twice in a list of keys. -/
def distinctKeys : List ScanCode → Bool
  | [] => true
  | k :: ks => !ks.contains k && distinctKeys ks

/-- `WF_UNIQUE`: no key is twice in one table (R47). A premise of claims, not a check (R45, R46). -/
def wfUnique (c : Config) : Bool :=
  distinctKeys (c.regTable.map Prod.fst) && distinctKeys (c.modTable.map Prod.fst)

/-- A modifier table with its indices typed below MOD_W, if every one is. -/
def typedModTable : List (ScanCode × Nat) → Option (List (ScanCode × ModIndex))
  | [] => some []
  | (key, i) :: rest =>
    if h : i < 8 then (typedModTable rest).map ((key, ⟨i, h⟩) :: ·) else none

/-- Boot: a configuration that fails `COUNT_W >= 1` or `WF_MOD_INDEX` is refused (R8, R47, R110); else the machine starts in
the reset state under it (R126). -/
def boot (r : RawConfig) : Answer :=
  if r.countW = 0 then .refused .countWidthZero
  else
    match typedModTable r.modTable with
    | none => .refused .modIndexTooLarge
    | some table =>
      .next (State.resetWith
        { topCountBit := r.countW - 1
          regTable := r.regTable
          modTable := table
          hostMods := r.hostMods
          hostKey := r.hostKey })

end Sys2Proof.Machine
end

