-- ==== Sys2Proof/Safety.lean ====
section
/-! DEFINITION. What claims speak of: the invariant of the reachable states, quiescence (R139), the observation (R33), and
what a realization of the handoff must refine (R41, R131). -/

namespace Sys2Proof.Machine

/-- The nine registers hold their reset values (R15, R121). -/
def State.registersAtReset (s : State) : Prop := s.resetRegisters = s

/-- Quiescent: `phase == IDLE` and `hc_count == last_seen` (R139). -/
def State.quiescent (s : State) : Bool := s.phase == .idle && s.hcCount == s.lastSeen

/-- Frame-aligned: quiescent with `bc == 0` (R139). -/
def State.frameAligned (s : State) : Bool := s.quiescent && s.bc == 0

/-- The observation: the accepted commands and the value of `led` (R33, decision D23). -/
def State.observation (s : State) : List CmdWord × Bool := (s.trace, s.led)

/-- What holds at reset and after every step. The first two fields are the invariants of R17 and R18; the counts stay below
`2 ^ COUNT_W` (R20, R21); a key report is due only for a key other than `none` (R84); `pend_key` is a keycode of the table
or `none` (R58); and while `rst` is 1 the registers hold their reset values (R121). -/
structure State.Inv (s : State) : Prop where
  frame_fits : s.sr.toNat < 2 ^ s.bc.val
  led_in_progress : s.led = true ↔ s.bc.val ≠ 0
  count_fits : s.hcCount < 2 ^ s.cfg.countW
  seen_fits : s.lastSeen < 2 ^ s.cfg.countW
  key_due : s.phase = .keydn ∨ s.phase = .keyup → s.pendKey ≠ noKey
  key_known : s.pendKey = noKey ∨ ∃ e ∈ s.cfg.regTable, e.2 = s.pendKey
  reset_held : s.rst = true → s.registersAtReset

/-- This step takes a frame: a `clk` outside reset finds IDLE and a new frame (R76). -/
def State.takes (s : State) : Prop :=
  (∃ r, s.nextEvent = .clk r) ∧ s.rst = false ∧ s.phase = .idle ∧ s.newFrame = true

/-- The modifier bitset after the frame `f` is taken (R79). -/
def modsAfterTake (c : Config) (f : Frame) (mods : ModSet) : ModSet :=
  if relFlag f then modsAfterRelease c.modTable (scanCode f) mods else modsAfterPress c.modTable (scanCode f) mods

/-- The key due after the frame `f` is taken: none on a release (R81, R82). -/
def keyAfterTake (c : Config) (f : Frame) : Keycode :=
  if relFlag f then noKey else regLookup c.regTable (scanCode f)

/-- The commands of `n` frames processed to completion (R103): each frame is SET_MODS(m) alone, or SET_MODS(m), SET_KEY(k),
SET_KEY(none) with `k != none`. -/
inductive FrameGroups : Nat → List CmdWord → Prop where
  | none : FrameGroups 0 []
  | report (n : Nat) (ws : List CmdWord) (m : ModSet) : FrameGroups n ws → FrameGroups (n + 1) (ws ++ [setModsWord m])
  | tap (n : Nat) (ws : List CmdWord) (m : ModSet) (k : Keycode) : FrameGroups n ws → k ≠ noKey →
      FrameGroups (n + 1) (ws ++ [setModsWord m, setKeyWord k, setKeyWord noKey])

/-- The words fit the phase after `n` takes (R103): one group for each frame processed to completion, then the reports
accepted of the frame in progress. -/
def State.wordsFit (s : State) (n : Nat) (ws : List CmdWord) : Prop :=
  match s.phase with
  | .idle => FrameGroups n ws
  | .mods => ∃ k, n = k + 1 ∧ FrameGroups k ws
  | .keydn => ∃ k gs m, n = k + 1 ∧ FrameGroups k gs ∧ ws = gs ++ [setModsWord m]
  | .keyup => ∃ k gs m, n = k + 1 ∧ FrameGroups k gs ∧ ws = gs ++ [setModsWord m, setKeyWord s.pendKey]

/-- The trace since the last reset fits the phase (R103): `before` is the trace as it stood at that reset, `n` the number of
frames taken since. -/
def State.traceFits (s : State) (before : List CmdWord) (n : Nat) : Prop :=
  ∃ ws, s.trace = before ++ ws ∧ s.wordsFit n ws

/-- The falling edges of `kbd_clk` in a list of events. -/
def fallCount (es : List Event) : Nat :=
  es.countP fun e =>
    match e with
    | .kbdFall _ => true
    | .kbdRise => false
    | .clk _ => false
    | .rst _ => false

/-- A realization of the handoff (`CDC_IMPL`, R8): what its observation of the cell returns, given the state at which it
reads the count and the later one at which it reads the frame. -/
abbrev CdcImpl := State → State → Frame × Nat

/-- R41: the pair observed is the cell of ONE state, the one or the other. -/
def CdcImpl.refinesSnapshot (impl : CdcImpl) : Prop :=
  ∀ first second, impl first second = first.snapshot ∨ impl first second = second.snapshot

/-- The pattern R41 excludes (conflict C3): the count of the first state with the frame of the second. -/
def twoReads : CdcImpl := fun first second => (second.hcFrame, first.hcCount)

end Sys2Proof.Machine
end

