-- ==== Sys2Proof/Machine/Stimulus.lean ====
section
/-! DEFINITION. Running the stimulus notation (R60, R61) on the machine. -/

namespace Sys2Proof.Machine

/-- One step with a given event. -/
def State.stepWith (e : Event) (s : State) : Answer := step (s.place e)

/-- Steps with given events, in order. -/
def State.stepAll : List Event → State → Answer
  | [], s => .next s
  | e :: es, s =>
    match s.stepWith e with
    | .next t => State.stepAll es t
    | .fault r => .fault r
    | .refused r => .refused r

/-- `RUN`: STEP until quiescent, at most `fuel` times (R61). -/
def State.runQuiet : Nat → State → Answer
  | 0, s => .next s
  | fuel + 1, s =>
    if s.quiescent then .next s
    else
      match s.stepWith (.clk true) with
      | .next t => State.runQuiet fuel t
      | .fault r => .fault r
      | .refused r => .refused r

/-- The ten edges of `FRAME f`, most significant bit first (R36, R61). -/
def frameEdges (f : Frame) : List Event :=
  [9, 8, 7, 6, 5, 4, 3, 2, 1, 0].map fun n => .kbdFall (f.extractLsb' n 1)

/-- The edges of a frame and then `RUN`, at most 7 steps (R61). -/
def State.frameThenRun (f : Frame) (s : State) : Answer :=
  match s.stepAll (frameEdges f) with
  | .next t => t.runQuiet 7
  | .fault r => .fault r
  | .refused r => .refused r

/-- A line of the notation (R60, R61). -/
def State.runLine (l : Line) (s : State) : Answer :=
  match l with
  | .edge d => s.stepAll [.kbdFall d]
  | .step => s.stepAll [.clk true]
  | .stall => s.stepAll [.clk false]
  | .reset => s.stepAll [.rst true, .rst false]
  | .frame f => s.stepAll (frameEdges f)
  | .run => s.runQuiet 7
  | .press f => s.frameThenRun (f &&& 0x3FE#10)
  | .release f => s.frameThenRun (f ||| 0x001#10)

/-- A stimulus program: its lines, in order (R60). -/
def State.runLines : List Line → State → Answer
  | [], s => .next s
  | l :: ls, s =>
    match s.runLine l with
    | .next t => State.runLines ls t
    | .fault r => .fault r
    | .refused r => .refused r

end Sys2Proof.Machine
end

