-- ==== Sys2Proof/Certificates/Slice0/Obligations.lean ====
section
/-! DEFINITION. What is stated of the machine, from the spec's numbered rules. Each docstring names the rule. -/

open Sys2Proof Sys2Proof.Machine

/-! ## The Frame Sampler -/

/-- R66: an edge below nine bits shifts, counts (without wrapping) and raises `led` at the first bit; nothing else
changes. -/
def Obligations.EdgeBelowNineShifts : Prop :=
  ∀ (s : State) (d : BitVec 1), s.rst = false → s.bc.val < 9 →
    (s.bc + 1).val = s.bc.val + 1 ∧
    exec (.edge d) s = .next
      { s with sr := (s.sr <<< 1) ||| d.setWidth 10, bc := s.bc + 1, led := if s.bc.val = 0 then true else s.led }

/-- R67: the tenth edge publishes the frame with the count, and empties the Sampler's registers, in one step. -/
def Obligations.TenthEdgePublishes : Prop :=
  ∀ (s : State) (d : BitVec 1), s.rst = false → s.bc.val = 9 →
    exec (.edge d) s = .next
      { s with
        hcFrame := (s.sr <<< 1) ||| d.setWidth 10, hcCount := (s.hcCount + 1) % 2 ^ s.cfg.countW
        sr := 0, bc := 0, led := false }

/-- R72: while `rst` is 1 a falling edge takes no step, its bit is lost, and the sampler-domain registers hold their reset
values (in every state that meets the invariant, which rules out states no run reaches). -/
def Obligations.EdgeInResetIsLost : Prop :=
  ∀ (s : State) (d : BitVec 1) (rest : List Event), s.rst = true →
    exec (.edge d) s = .next s ∧
    (s.stimulus = .kbdFall d :: rest → step s = .next { s with stimulus := rest }) ∧
    (s.Inv → s.sr = 0 ∧ s.bc = 0 ∧ s.led = false ∧ s.hcFrame = 0 ∧ s.hcCount = 0)

/-- R68: a rising edge of `kbd_clk` changes no state and samples nothing. -/
def Obligations.RisingEdgeChangesNothing : Prop :=
  ∀ (s : State) (rest : List Event), s.stimulus = .kbdRise :: rest → step s = .next { s with stimulus := rest }

/-- 40_sampler.md section 4: ten edges from `bc = 0` publish exactly one frame, the ten bits first-received highest, and
advance the count by one. -/
def Obligations.TenEdgesPublishOneFrame : Prop :=
  ∀ (s : State) (f : Frame) (rest : List Event), s.rst = false → s.bc.val = 0 → s.stimulus = frameEdges f ++ rest →
    Host.Core.run Sys2Proof.core 10 s = .next
      { s with
        sr := 0, bc := 0, led := false, hcFrame := f, hcCount := (s.hcCount + 1) % 2 ^ s.cfg.countW
        stimulus := rest }

/-- 40_sampler.md section 4: after 1 to 9 edges from `bc = 0`, `led` is 1, the bits are counted, and the handoff cell is as
it was. -/
def Obligations.PartialFrameHoldsLedHigh : Prop :=
  ∀ (s : State) (bits : List (BitVec 1)) (rest : List Event), s.rst = false → s.bc.val = 0 →
    1 ≤ bits.length → bits.length ≤ 9 → s.stimulus = bits.map Event.kbdFall ++ rest →
    ∃ t, Host.Core.run Sys2Proof.core bits.length s = .next t ∧
      t.bc.val = bits.length ∧ t.led = true ∧ t.hcFrame = s.hcFrame ∧ t.hcCount = s.hcCount ∧ t.stimulus = rest

/-- The frame of EDGE: every register of the Processor, the command trace, the transport's slots and reports, the reset
input, the configuration and the stimulus are unchanged; below nine bits the handoff cell is unchanged too. -/
def Obligations.EdgeFrame : Prop :=
  ∀ (s t : State) (d : BitVec 1), exec (.edge d) s = .next t →
    t.lastSeen = s.lastSeen ∧ t.mods = s.mods ∧ t.phase = s.phase ∧ t.pendKey = s.pendKey ∧ t.cfg = s.cfg ∧
    t.rst = s.rst ∧ t.trace = s.trace ∧ t.ms = s.ms ∧ t.ks = s.ks ∧ t.reports = s.reports ∧
    t.stimulus = s.stimulus ∧ t.draws = s.draws ∧
    (s.bc.val < 9 → t.hcFrame = s.hcFrame ∧ t.hcCount = s.hcCount)

/-! ## The handoff cell -/

/-- 10_state.md section 2: a step changes the cell only by publishing frame and count together at a tenth edge, or by
reset. -/
def Obligations.CellChangesOnlyByPublish : Prop :=
  ∀ s t : State, step s = .next t →
    (t.hcFrame = s.hcFrame ∧ t.hcCount = s.hcCount) ∨
    (∃ d, s.nextEvent = .kbdFall d ∧ s.rst = false ∧ s.bc.val = 9 ∧
      t.hcFrame = (s.sr <<< 1) ||| d.setWidth 10 ∧ t.hcCount = (s.hcCount + 1) % 2 ^ s.cfg.countW) ∨
    (s.nextEvent = .rst true ∧ t.hcFrame = 0 ∧ t.hcCount = 0)

/-- 70_reset_and_hazards.md section 3, 20_memory.md section 4: after any publishes from a state with no frame pending, the
cell holds the last frame, and a new frame is seen exactly when their number is no multiple of `2 ^ COUNT_W`; when it is
one, POLL keeps waiting. -/
def Obligations.PublishesAliasModuloCountWidth : Prop :=
  ∀ (s : State) (fs : List Frame), s.hcCount < 2 ^ s.cfg.countW → s.hcCount = s.lastSeen →
    let u := fs.foldl (fun v f => v.publish f) s
    u.hcFrame = fs.getLastD s.hcFrame ∧
    (u.newFrame = true ↔ ¬ 2 ^ s.cfg.countW ∣ fs.length) ∧
    (2 ^ s.cfg.countW ∣ fs.length → s.rst = false → s.phase = .idle → exec .poll u = .next u)

/-- 20_memory.md sections 3 and 4, 70_reset_and_hazards.md section 3 (HO2 has no run): a take pairs `last_seen` with the
frame of the same state: `mods` and `pend_key` are computed from the frame the cell holds with that count. Whatever events
follow, so long as no tenth edge publishes and no reset comes, the pair stands, and a `clk` in IDLE then polls: the frame is
taken once. -/
def Obligations.TakenFrameIsNotTakenAgain : Prop :=
  ∀ (s : State) (r : Bool) (es rest : List Event), s.rst = false → s.phase = .idle → s.hcCount ≠ s.lastSeen →
    s.stimulus = .clk r :: (es ++ rest) → .rst true ∉ es → s.bc.val + fallCount es ≤ 9 →
    ∃ t u, step s = .next t ∧
      t.hcFrame = s.hcFrame ∧ t.hcCount = s.hcCount ∧ t.lastSeen = s.hcCount ∧ t.phase = .mods ∧
      t.mods = modsAfterTake s.cfg s.hcFrame s.mods ∧ t.pendKey = keyAfterTake s.cfg s.hcFrame ∧
      Host.Core.run Sys2Proof.core es.length t = .next u ∧
      u.hcFrame = s.hcFrame ∧ u.hcCount = s.hcCount ∧ u.lastSeen = s.hcCount ∧ u.mods = t.mods ∧ u.pendKey = t.pendKey ∧
      u.stimulus = rest ∧
      ∀ b rest', u.phase = .idle → rest = .clk b :: rest' → step u = .next { u with stimulus := rest' }

/-- 70_reset_and_hazards.md section 3, conflict C3 (`CDC_IMPL`, outside the step, log 8): let a frame be published between
the two reads of a realization of the handoff. If the realization refines the snapshot and a frame is pending after its
take, the frame it took was the older one, with that one's own count; the two-read pattern has a frame pending after its take
although it took the new one, which the next take processes again. -/
def Obligations.RefiningHandoffTakesFrameOnce : Prop :=
  ∀ (s : State) (f : Frame) (m : ModSet) (k : Keycode),
    let second := s.publish f
    (∀ impl : CdcImpl, impl.refinesSnapshot →
      (second.taken (impl s second).2 m k).newFrame = true → impl s second = (s.hcFrame, s.hcCount)) ∧
    (s.hcCount < 2 ^ s.cfg.countW →
      (twoReads s second).1 = f ∧ (second.taken (twoReads s second).2 m k).newFrame = true ∧
      (second.taken (twoReads s second).2 m k).hcFrame = f)

/-! ## The tables -/

/-- R45, R46: each lookup answers the first entry in list order whose key equals the scan code; with no such entry,
ModLookup answers None and RegLookup `none`. -/
def Obligations.LookupsTakeFirstMatch : Prop :=
  ∀ sc : ScanCode,
    (∀ (pre post : List (ScanCode × ModIndex)) (i : ModIndex), (∀ e ∈ pre, e.1 ≠ sc) →
      modLookup (pre ++ (sc, i) :: post) sc = some i) ∧
    (∀ table : List (ScanCode × ModIndex), (∀ e ∈ table, e.1 ≠ sc) → modLookup table sc = none) ∧
    (∀ (pre post : List (ScanCode × Keycode)) (k : Keycode), (∀ e ∈ pre, e.1 ≠ sc) →
      regLookup (pre ++ (sc, k) :: post) sc = k) ∧
    (∀ table : List (ScanCode × Keycode), (∀ e ∈ table, e.1 ≠ sc) → regLookup table sc = 0x00#8)

/-- 20_memory.md section 5: an entry whose key is odd never matches the scan code of a frame, wherever it stands. -/
def Obligations.OddKeysNeverMatch : Prop :=
  ∀ (f : Frame) (key : ScanCode), key.getLsbD 0 = true →
    (∀ (pre post : List (ScanCode × ModIndex)) (i : ModIndex),
      modLookup (pre ++ (key, i) :: post) (scanCode f) = modLookup (pre ++ post) (scanCode f)) ∧
    (∀ (pre post : List (ScanCode × Keycode)) (k : Keycode),
      regLookup (pre ++ (key, k) :: post) (scanCode f) = regLookup (pre ++ post) (scanCode f))

/-- 30_encoding.md section 2: with tables that share no key, a modifier's scan code has no keycode. -/
def Obligations.DisjointTablesSeparateKeys : Prop :=
  ∀ (c : Config) (sc : ScanCode) (i : ModIndex), wfDisjoint c = true → modLookup c.modTable sc = some i →
    regLookup c.regTable sc = noKey

/-- 20_memory.md section 5, 60_exceptions.md section 1: boot refuses exactly the configurations that fail WF_MOD_INDEX (and,
the model's reading of `COUNT_W >= 1`, log 5, those with no counter bit), and starts any other in the reset state with its
tables as supplied. -/
def Obligations.BootRefusesBadConfigurations : Prop :=
  ∀ r : RawConfig,
    (boot r = .refused .countWidthZero ↔ r.countW = 0) ∧
    (boot r = .refused .modIndexTooLarge ↔ r.countW ≠ 0 ∧ ∃ e ∈ r.modTable, 8 ≤ e.2) ∧
    (r.countW ≠ 0 → (∀ e ∈ r.modTable, e.2 < 8) →
      ∃ c : Config, boot r = .next (State.resetWith c) ∧ c.countW = r.countW ∧ c.regTable = r.regTable ∧
        c.modTable.map (fun e => (e.1, e.2.val)) = r.modTable ∧ c.hostMods = r.hostMods ∧ c.hostKey = r.hostKey)

/-! ## The Key Event Processor -/

/-- R75: POLL with no new frame changes nothing and offers nothing. -/
def Obligations.PollKeepsWaiting : Prop :=
  ∀ s : State, s.rst = false → s.phase = .idle → s.hcCount = s.lastSeen →
    exec .poll s = .next s ∧ s.txValid = false

/-- R76, R77, R78: a take records the snapshot's count, updates the modifier bit the first matching entry names, looks up
the key on a press and none on a release, and makes the modifier report due. -/
def Obligations.TakeProcessesSnapshot : Prop :=
  ∀ (s : State) (f : Frame), s.rst = false → s.phase = .idle → s.hcFrame = f → s.hcCount ≠ s.lastSeen →
    s.txValid = false ∧
    (f &&& 1#10 = 0#10 → exec (.takePress (f.extractLsb' 1 9)) s = .next
      { s with
        lastSeen := s.hcCount
        mods := match modLookup s.cfg.modTable (f &&& 0x3FE#10) with
          | some i => s.mods ||| (1#8 <<< i.val)
          | none => s.mods
        pendKey := regLookup s.cfg.regTable (f &&& 0x3FE#10), phase := .mods }) ∧
    (f &&& 1#10 = 1#10 → exec (.takeRelease (f.extractLsb' 1 9)) s = .next
      { s with
        lastSeen := s.hcCount
        mods := match modLookup s.cfg.modTable (f &&& 0x3FE#10) with
          | some i => s.mods &&& ~~~(1#8 <<< i.val)
          | none => s.mods
        pendKey := 0x00#8, phase := .mods })

/-- R79: the first entry of the modifier table whose key is the scan code names the one bit a take changes: set by a press,
cleared by a release; with no entry the bitset is unchanged. -/
def Obligations.TakeChangesOneModifierBit : Prop :=
  ∀ (s : State) (f : Frame), s.rst = false → s.phase = .idle → s.hcFrame = f → s.hcCount ≠ s.lastSeen →
    ∃ t, exec (if f.getLsbD 0 then .takeRelease (f.extractLsb' 1 9) else .takePress (f.extractLsb' 1 9)) s = .next t ∧
      ((∀ e ∈ s.cfg.modTable, e.1 ≠ f &&& 0x3FE#10) → t.mods = s.mods) ∧
      (∀ pre post i, s.cfg.modTable = pre ++ (f &&& 0x3FE#10, i) :: post → (∀ e ∈ pre, e.1 ≠ f &&& 0x3FE#10) →
        t.mods.getLsbD i.val = !f.getLsbD 0 ∧
        ∀ j : ModIndex, j ≠ i → t.mods.getLsbD j.val = s.mods.getLsbD j.val)

/-- R83: the modifier report. The word is `{0, mods}`, offered and, on acceptance, appended once to the trace. -/
def Obligations.EmitModsReports : Prop :=
  ∀ s : State, s.rst = false → s.phase = .mods →
    s.txValid = true ∧ s.txCmd = 0#1 ∧ s.txArg = s.mods ∧
    exec .emitMods s = .next
      { s with trace := s.trace ++ [s.mods.setWidth 9], phase := if s.pendKey ≠ 0x00#8 then .keydn else .idle }

/-- R84: the key-press report. The word is `{1, pend_key}`. -/
def Obligations.EmitKeydnReports : Prop :=
  ∀ s : State, s.rst = false → s.phase = .keydn →
    s.txValid = true ∧ s.txCmd = 1#1 ∧ s.txArg = s.pendKey ∧
    exec .emitKeydn s = .next
      { s with trace := s.trace ++ [0x100#9 ||| s.pendKey.setWidth 9], phase := .keyup }

/-- R85: the key-release report. The word is `{1, 0x00}`; `pend_key` keeps its value. -/
def Obligations.EmitKeyupReports : Prop :=
  ∀ s : State, s.rst = false → s.phase = .keyup →
    s.txValid = true ∧ s.txCmd = 1#1 ∧ s.txArg = 0x00#8 ∧
    exec .emitKeyup s = .next { s with trace := s.trace ++ [0x100#9], phase := .idle }

/-- 41_processor.md section 2 (R86): HOLD in any of the three reporting phases changes no state. -/
def Obligations.HoldChangesNothing : Prop :=
  ∀ (s : State) (p : Phase), s.rst = false → p ≠ .idle → s.phase = p → exec (.hold p) s = .next s ∧ s.txValid = true

/-- 41_processor.md section 2 (R86): whatever edges and holds come, the offer stays the same and nothing is emitted until
the transport accepts. -/
def Obligations.OfferStableUntilAccepted : Prop :=
  ∀ (es : List Event) (s : State) (rest : List Event), s.rst = false → s.txValid = true →
    (∀ e ∈ es, e = .clk false ∨ e = .kbdRise ∨ ∃ d, e = .kbdFall d) → s.stimulus = es ++ rest →
    ∃ t, Host.Core.run Sys2Proof.core es.length s = .next t ∧ t.stimulus = rest ∧
      t.txValid = true ∧ t.txWord = s.txWord ∧ t.phase = s.phase ∧ t.mods = s.mods ∧ t.pendKey = s.pendKey ∧
      t.lastSeen = s.lastSeen ∧ t.trace = s.trace ∧ t.reports = s.reports

/-- 70_reset_and_hazards.md section 1: while `rst` is 1 no Processor step occurs. That exec of any Processor operation, the
one the phase selects or another, then answers the same state and does not refuse is the model's choice (log 6). -/
def Obligations.NoProcessorStepInReset : Prop :=
  ∀ (s : State) (scHi : BitVec 9) (p : Phase), s.rst = true →
    exec .poll s = .next s ∧ exec (.takePress scHi) s = .next s ∧ exec (.takeRelease scHi) s = .next s ∧
    exec .emitMods s = .next s ∧ exec .emitKeydn s = .next s ∧ exec .emitKeyup s = .next s ∧
    exec (.hold p) s = .next s

/-- The model's choice (log 6): outside reset, a Processor operation is refused exactly where the state selects another. -/
def Obligations.UnselectedOperationsRefused : Prop :=
  ∀ (s : State) (scHi : BitVec 9) (p : Phase), s.rst = false →
    (exec .poll s = .refused .notSelected ↔ ¬ (s.phase = .idle ∧ s.hcCount = s.lastSeen)) ∧
    (exec (.takePress scHi) s = .refused .notSelected ↔
      ¬ (s.phase = .idle ∧ s.hcCount ≠ s.lastSeen ∧ s.hcFrame = frameOf scHi 0#1)) ∧
    (exec (.takeRelease scHi) s = .refused .notSelected ↔
      ¬ (s.phase = .idle ∧ s.hcCount ≠ s.lastSeen ∧ s.hcFrame = frameOf scHi 1#1)) ∧
    (exec .emitMods s = .refused .notSelected ↔ s.phase ≠ .mods) ∧
    (exec .emitKeydn s = .refused .notSelected ↔ s.phase ≠ .keydn) ∧
    (exec .emitKeyup s = .refused .notSelected ↔ s.phase ≠ .keyup) ∧
    (exec (.hold p) s = .refused .notSelected ↔ ¬ (p ≠ .idle ∧ s.phase = p))

/-- The frame of the Processor's operations: the Sampler's registers, the handoff cell, the configuration, the reset input,
the transport's slots and reports, and the stimulus are unchanged by every one of them. -/
def Obligations.ProcessorFrame : Prop :=
  ∀ (s t : State) (scHi : BitVec 9) (p : Phase) (i : Instr),
    i ∈ [.poll, .takePress scHi, .takeRelease scHi, .emitMods, .emitKeydn, .emitKeyup, .hold p] →
    exec i s = .next t →
    t.sr = s.sr ∧ t.bc = s.bc ∧ t.led = s.led ∧ t.hcFrame = s.hcFrame ∧ t.hcCount = s.hcCount ∧ t.cfg = s.cfg ∧
    t.rst = s.rst ∧ t.ms = s.ms ∧ t.ks = s.ks ∧ t.reports = s.reports ∧ t.stimulus = s.stimulus ∧ t.draws = s.draws

/-- The frame of each kind of Processor operation in its own domain: POLL and HOLD change nothing, a take emits nothing, a
report leaves `last_seen`, `mods` and `pend_key`. -/
def Obligations.ProcessorDomainFrame : Prop :=
  ∀ (s t : State) (scHi : BitVec 9) (p : Phase),
    (∀ i ∈ [Instr.poll, .hold p], exec i s = .next t → t = s) ∧
    (∀ i ∈ [Instr.takePress scHi, .takeRelease scHi], exec i s = .next t → t.trace = s.trace) ∧
    (∀ i ∈ [Instr.emitMods, .emitKeydn, .emitKeyup], exec i s = .next t →
      t.lastSeen = s.lastSeen ∧ t.mods = s.mods ∧ t.pendKey = s.pendKey)

/-! ## The transport -/

/-- R101: SET_MODS(m) sets `ms` and transmits (`ms`, `ks`); SET_KEY(k) sets `ks` and transmits (`ms`, `ks`), `none`
included. The initial slots are the configuration's. -/
def Obligations.CommandsSetHostSlots : Prop :=
  (∀ (s : State) (m : ModSet), exec (.setMods m) s = .next { s with ms := m, reports := s.reports ++ [(m, s.ks)] }) ∧
  (∀ (s : State) (k : Keycode), exec (.setKey k) s = .next { s with ks := k, reports := s.reports ++ [(s.ms, k)] }) ∧
  (∀ s : State, exec .setKeyNone s = .next { s with ks := 0x00#8, reports := s.reports ++ [(s.ms, 0x00#8)] }) ∧
  (∀ c : Config, (State.resetWith c).ms = c.hostMods ∧ (State.resetWith c).ks = c.hostKey)

/-- The frame of the transport's commands: no register of the block, no trace, no input and no configuration changes; each
command leaves the other slot. -/
def Obligations.TransportFrame : Prop :=
  ∀ (s t : State) (m : ModSet) (k : Keycode) (i : Instr), i ∈ [.setMods m, .setKey k, .setKeyNone] → exec i s = .next t →
    t.sr = s.sr ∧ t.bc = s.bc ∧ t.led = s.led ∧ t.hcFrame = s.hcFrame ∧ t.hcCount = s.hcCount ∧
    t.lastSeen = s.lastSeen ∧ t.mods = s.mods ∧ t.phase = s.phase ∧ t.pendKey = s.pendKey ∧ t.cfg = s.cfg ∧
    t.rst = s.rst ∧ t.trace = s.trace ∧ t.stimulus = s.stimulus ∧ t.draws = s.draws ∧
    (i = .setMods m → t.ks = s.ks) ∧ (i = .setKey k ∨ i = .setKeyNone → t.ms = s.ms)

/-- 30_encoding.md section 3, 41_processor.md section 3: the command port in every phase: `tx_valid`, and the word with
`tx_cmd` at bit 8 and `tx_arg` at bits 7 to 0 (in IDLE the two outputs are 1 and 0, and nothing is offered). -/
def Obligations.CommandPortOutputs : Prop :=
  ∀ s : State,
    s.txValid = decide (s.phase ≠ .idle) ∧
    s.txWord = s.txCmd ++ s.txArg ∧
    (s.phase = .idle → s.txWord = 0x100#9) ∧
    (s.phase = .mods → s.txWord = s.mods.setWidth 9) ∧
    (s.phase = .keydn → s.txWord = 0x100#9 ||| s.pendKey.setWidth 9) ∧
    (s.phase = .keyup → s.txWord = 0x100#9)

/-! ## Reset -/

/-- R121: RESET writes the nine registers and nothing else (no command is emitted); the step that raises `rst` executes it;
and while `rst` is 1 edges and `clk`s change nothing. -/
def Obligations.ResetWritesEveryRegister : Prop :=
  (∀ s : State, exec .reset s = .next
    { s with
      sr := 0x000#10, bc := 0, led := false, hcFrame := 0x000#10, hcCount := 0
      lastSeen := 0, mods := 0x00#8, phase := .idle, pendKey := 0x00#8 }) ∧
  (∀ (s : State) (rest : List Event), s.stimulus = .rst true :: rest →
    ∃ t, step s = .next t ∧ exec .reset { s with rst := true, stimulus := rest } = .next t ∧
      t.txValid = false ∧ t.led = false ∧ t.rst = true) ∧
  (∀ (s : State) (d : BitVec 1) (r : Bool) (rest : List Event), s.rst = true →
    (s.stimulus = .kbdFall d :: rest ∨ s.stimulus = .clk r :: rest) → step s = .next { s with stimulus := rest })

/-- R125: when `rst` falls (from a state that meets the invariant), no frame is in progress or pending, the outputs are low,
and the next falling edge is bit 1 of the first frame. -/
def Obligations.ResetReleaseStartsIdle : Prop :=
  ∀ (s : State) (rest : List Event), s.Inv → s.rst = true → s.stimulus = .rst false :: rest →
    ∃ t, step s = .next t ∧ t.rst = false ∧ t.bc.val = 0 ∧ t.phase = .idle ∧ t.hcCount = t.lastSeen ∧
      t.led = false ∧ t.txValid = false ∧
      ∀ d, ∃ u, exec (.edge d) t = .next u ∧ u.bc.val = 1 ∧ u.sr = d.setWidth 10 ∧ u.led = true

/-- 10_state.md section 1: the state after reset holds the table's reset values under every configuration, `State.reset`
among them, and is quiescent and frame-aligned. -/
def Obligations.ResetStateValues : Prop :=
  (∀ c : Config,
    let s := State.resetWith c
    s.sr = 0x000#10 ∧ s.bc.val = 0 ∧ s.led = false ∧ s.hcFrame = 0x000#10 ∧ s.hcCount = 0 ∧ s.lastSeen = 0 ∧
    s.mods = 0x00#8 ∧ s.phase = .idle ∧ s.pendKey = 0x00#8 ∧ s.rst = false ∧ s.cfg = c ∧ s.frameAligned = true) ∧
  State.reset = State.resetWith Config.installed

/-- The frame of RESET: the configuration, the reset input, the trace, the transport's slots and reports, and the stimulus
are unchanged. -/
def Obligations.ResetFrame : Prop :=
  ∀ s t : State, exec .reset s = .next t →
    t.cfg = s.cfg ∧ t.rst = s.rst ∧ t.trace = s.trace ∧ t.ms = s.ms ∧ t.ks = s.ks ∧ t.reports = s.reports ∧
    t.stimulus = s.stimulus ∧ t.draws = s.draws

/-! ## Encodings -/

/-- 30_encoding.md: decoding the encoded value of any well-formed operation gives it back, every operand at every value. -/
def Obligations.DecodeEncodeRoundTrip : Prop :=
  ∀ i : Instr, i.wellFormed = true → decode (encode i) = .ok i

/-- 30_encoding.md: what is decoded is well-formed and encodes to the value it was read from; the one exception is IDLE with
`tx_ready` low, which polls like IDLE with it high. -/
def Obligations.EncodeDecodeRoundTrip : Prop :=
  ∀ (v : Encoded) (i : Instr), decode v = .ok i →
    i.wellFormed = true ∧ (encode i = v ∨ (v = .phase 0b00#2 false ∧ i = .poll))

/-- 30_encoding.md section 1: as numbers, exactly the values of a format's width are accepted, and of them all but the
signal `rst = 0`, which is no operation, decode. -/
def Obligations.DecoderAcceptsFormatWidths : Prop :=
  ∀ (fmt : Format) (r : Bool) (w : Nat),
    (decodeNat fmt r w = .error .tooWide ↔ 2 ^ fmt.width ≤ w) ∧
    (decodeNat fmt r w = .error .signalLow ↔ fmt = .signal ∧ w = 0)

/-- 30_encoding.md, 95_test_vectors.md sections 2 and 6, opcode table: words written out from the encodings. -/
def Obligations.SpecWordsDecode : Prop :=
  decode (.edge 1#1) = .ok (.edge 1#1) ∧
  decode (.signal 1#1) = .ok .reset ∧
  decode (.phase 0b00#2 true) = .ok .poll ∧
  decode (.phase 0b10#2 true) = .ok .emitKeydn ∧
  decode (.phase 0b10#2 false) = .ok (.hold .keydn) ∧
  decode (.frame 0x178#10) = .ok (.takePress 0x0BC#9) ∧
  decode (.frame 0x1B9#10) = .ok (.takeRelease 0x0DC#9) ∧
  decode (.cmd 0x003#9) = .ok (.setMods 0x03#8) ∧
  decode (.cmd 0x104#9) = .ok (.setKey 0x04#8) ∧
  decode (.cmd 0x100#9) = .ok .setKeyNone

/-! ## The step -/

/-- A step runs the decoded operation: with nothing presented it only draws the event; with one value presented it is exec
of the operation decoded; `State.ready` is the state with the event drawn and the reset input set. -/
def Obligations.StepRunsDecodedOperation : Prop :=
  ∀ s : State,
    (s.ready.presents s.nextEvent = [] → step s = .next s.ready) ∧
    (∀ v i, s.ready.presents s.nextEvent = [v] → decode v = .ok i → step s = exec i s.ready)

/-- 42_transport.md sections 1 and 2, and the model's reading that the transport acts in the accepting step (log 12): at a
`clk` at which the transport accepts, the report of the phase is executed and then, in the same step, the command decoded
from the word that was offered. -/
def Obligations.AcceptedWordReachesTransport : Prop :=
  ∀ s : State, s.nextEvent = .clk true → s.rst = false → s.phase ≠ .idle →
    ∃ i t u, decode (.phase s.phase.bits true) = .ok i ∧ exec i s.ready = .next t ∧
      exec (decodeCmd s.txWord) t = .next u ∧ step s = .next u ∧
      u.reports = s.reports ++ [(u.ms, u.ks)]

/-- R97: a step appends one word to the trace, the word offered, exactly when a `clk` finds `tx_valid` and `tx_ready` both 1
(outside reset); the Processor then leaves the offering phase. At every other step the trace is unchanged. -/
def Obligations.TraceGrowsByAcceptedOffers : Prop :=
  ∀ s t : State, step s = .next t →
    (s.nextEvent = .clk true ∧ s.rst = false ∧ s.txValid = true → t.trace = s.trace ++ [s.txWord] ∧ t.phase ≠ s.phase) ∧
    (¬ (s.nextEvent = .clk true ∧ s.rst = false ∧ s.txValid = true) → t.trace = s.trace)

/-- 42_transport.md sections 1 and 2, and the model's reading that the transport acts in the accepting step (log 12): a step
transmits one report, (`ms`, `ks`) as the step leaves them, exactly when a `clk` outside reset finds `tx_valid` and `tx_ready`
both 1; at every other step the reports and both slots are unchanged. -/
def Obligations.ReportsFollowAcceptedOffers : Prop :=
  ∀ s t : State, step s = .next t →
    (s.nextEvent = .clk true ∧ s.rst = false ∧ s.txValid = true → t.reports = s.reports ++ [(t.ms, t.ks)]) ∧
    (¬ (s.nextEvent = .clk true ∧ s.rst = false ∧ s.txValid = true) →
      t.reports = s.reports ∧ t.ms = s.ms ∧ t.ks = s.ks)

/-- 60_exceptions.md section 1: no state, event or configuration stops the machine: every step of every state answers a next
state. -/
def Obligations.EveryStepAnswersNext : Prop :=
  ∀ s : State, ∃ t, step s = .next t

/-- The invariant of Safety.lean (R17, R18, R20, R121 and what follows from them) is kept by every step. -/
def Obligations.StepKeepsInvariant : Prop :=
  ∀ s t : State, s.Inv → step s = .next t → t.Inv

/-- The state after reset meets the invariant under every configuration, and its trace, which the model's choice of log 11
makes empty there, fits its phase with no frame taken. -/
def Obligations.ResetMeetsInvariant : Prop :=
  ∀ c : Config, (State.resetWith c).Inv ∧ (State.resetWith c).traceFits [] 0

/-- 42_transport.md section 2: the trace since the last reset is a sequence of frame groups, one per frame taken, with the
accepted reports of the frame in progress after them. Every step keeps it so: a take counts one frame more, any other step
but the rise of `rst` none; at the rise of `rst` the whole trace, a group cut apart in it included, becomes the trace before
that reset, and the sequence starts anew. -/
def Obligations.StepKeepsTraceGroups : Prop :=
  ∀ (s t : State) (before : List CmdWord) (n : Nat), s.Inv → s.traceFits before n → step s = .next t →
    (s.nextEvent = .rst true → t.traceFits s.trace 0) ∧
    (s.takes → t.traceFits before (n + 1)) ∧
    (s.nextEvent ≠ .rst true → ¬ s.takes → t.traceFits before n)

/-- 30_encoding.md section 3: every SET_KEY word of the trace carries a keycode of the regular table or 0, and every step
keeps that. -/
def Obligations.StepKeepsKeyWordsFromTable : Prop :=
  ∀ s t : State, s.Inv → step s = .next t →
    (∀ w ∈ s.trace, w.getLsbD 8 = true → w.extractLsb' 0 8 = 0#8 ∨ ∃ e ∈ s.cfg.regTable, e.2 = w.extractLsb' 0 8) →
    ∀ w ∈ t.trace, w.getLsbD 8 = true → w.extractLsb' 0 8 = 0#8 ∨ ∃ e ∈ t.cfg.regTable, e.2 = w.extractLsb' 0 8

/-- 20_memory.md section 5: no step changes the configuration. -/
def Obligations.ConfigurationNeverChanges : Prop :=
  ∀ s t : State, step s = .next t → t.cfg = s.cfg

/-- 10_state.md section 3, 41_processor.md section 3: `mods` is written only by a take, at a `clk` in IDLE that finds a new
frame, and by reset. -/
def Obligations.ModsWrittenOnlyByTakeOrReset : Prop :=
  ∀ s t : State, step s = .next t → t.mods ≠ s.mods →
    s.nextEvent = .rst true ∨
    (∃ r, s.nextEvent = .clk r ∧ s.rst = false ∧ s.phase = .idle ∧ s.hcCount ≠ s.lastSeen ∧ t.phase = .mods ∧
      t.lastSeen = s.hcCount)

/-- 40_sampler.md section 3: two states that agree on the Sampler's registers, the cell, COUNT_W and the reset input, given
the same event, still agree on them after a step, whatever the Processor and the transport hold. -/
def Obligations.SamplerIndependentOfProcessor : Prop :=
  ∀ s s' t t' : State,
    s.sr = s'.sr → s.bc = s'.bc → s.led = s'.led → s.hcFrame = s'.hcFrame → s.hcCount = s'.hcCount →
    s.cfg.countW = s'.cfg.countW → s.rst = s'.rst → s.nextEvent = s'.nextEvent →
    step s = .next t → step s' = .next t' →
    t.sr = t'.sr ∧ t.bc = t'.bc ∧ t.led = t'.led ∧ t.hcFrame = t'.hcFrame ∧ t.hcCount = t'.hcCount ∧ t.rst = t'.rst

/-- 40_sampler.md section 2: the Processor sees nothing of a frame in progress: two states that differ at most in `sr`, `bc`
and `led` behave alike at a `clk`. -/
def Obligations.ProcessorBlindToFrameInProgress : Prop :=
  ∀ (s t : State) (sr : Frame) (bc : BitCount) (led : Bool) (r : Bool), s.nextEvent = .clk r → step s = .next t →
    step { s with sr := sr, bc := bc, led := led } = .next { t with sr := sr, bc := bc, led := led }

/-- 60_exceptions.md section 2: a shifting edge and a `clk` may be taken in either order with the same result. -/
def Obligations.ShiftingEdgeCommutesWithClock : Prop :=
  ∀ (s : State) (d : BitVec 1) (r : Bool), s.bc.val < 9 →
    ∃ t, s.stepAll [.kbdFall d, .clk r] = .next t ∧ s.stepAll [.clk r, .kbdFall d] = .next t

/-- 20_memory.md section 4, 60_exceptions.md section 2: the completing edge and a `clk` in IDLE are ordered one before the
other, and the snapshot gets the old cell or the new, whole. Edge first: the take sees the new frame with the new count (or,
when that count has wrapped to `last_seen`, the poll changes nothing). `clk` first, no frame pending: the poll changes nothing.
`clk` first, a frame pending (HO1): the take sees the old frame with the old count. Either way the cell then holds the new
frame with the new count, which is pending when the `clk` came first. -/
def Obligations.PublishAndSnapshotAreOrdered : Prop :=
  ∀ (s : State) (d : BitVec 1) (r : Bool) (f : Frame) (c : Nat), s.rst = false → s.phase = .idle → s.bc.val = 9 →
    s.hcCount < 2 ^ s.cfg.countW → f = (s.sr <<< 1) ||| d.setWidth 10 → c = (s.hcCount + 1) % 2 ^ s.cfg.countW →
    c ≠ s.hcCount ∧
    (∃ t, s.stepAll [.kbdFall d, .clk r] = .next t ∧ t.hcFrame = f ∧ t.hcCount = c ∧ t.lastSeen = c ∧
      if c = s.lastSeen then t.phase = .idle ∧ t.mods = s.mods ∧ t.pendKey = s.pendKey
      else t.phase = .mods ∧ t.mods = modsAfterTake s.cfg f s.mods ∧ t.pendKey = keyAfterTake s.cfg f) ∧
    (∃ u, s.stepAll [.clk r, .kbdFall d] = .next u ∧ u.hcFrame = f ∧ u.hcCount = c ∧ u.lastSeen = s.hcCount ∧
      u.newFrame = true ∧
      if s.hcCount = s.lastSeen then u.phase = .idle ∧ u.mods = s.mods ∧ u.pendKey = s.pendKey
      else u.phase = .mods ∧ u.mods = modsAfterTake s.cfg s.hcFrame s.mods ∧ u.pendKey = keyAfterTake s.cfg s.hcFrame)

/-- 41_processor.md section 3, 42_transport.md section 2: four accepting `clk`s from IDLE take a new press frame whose scan
code has a keycode k and emit exactly SET_MODS(m), SET_KEY(k), SET_KEY(none), m the bitset after the update (a key in both
tables included, R92); the host sees the key for one report. The slots and reports after the run rest on the model's reading that the
transport acts in the accepting step (log 12). -/
def Obligations.MappedPressEmitsTap : Prop :=
  ∀ (s : State) (rest : List Event) (m : ModSet) (k : Keycode), s.rst = false → s.phase = .idle →
    s.hcCount ≠ s.lastSeen → s.hcFrame.getLsbD 0 = false →
    m = modsAfterPress s.cfg.modTable (scanCode s.hcFrame) s.mods →
    k = regLookup s.cfg.regTable (scanCode s.hcFrame) → k ≠ noKey →
    s.stimulus = List.replicate 4 (.clk true) ++ rest →
    Host.Core.run Sys2Proof.core 4 s = .next
      { s with
        lastSeen := s.hcCount, mods := m, pendKey := k, phase := .idle
        trace := s.trace ++ [m.setWidth 9, 0x100#9 ||| k.setWidth 9, 0x100#9]
        ms := m, ks := 0x00#8, reports := s.reports ++ [(m, s.ks), (m, k), (m, 0x00#8)]
        stimulus := rest }

/-- 41_processor.md section 3, 42_transport.md section 2: two accepting `clk`s from IDLE take any other new frame (a
release, or a press with no keycode) and emit SET_MODS(m) alone. The slot and the report after the run rest on the model's
reading that the transport acts in the accepting step (log 12). -/
def Obligations.OtherFramesEmitModifierReportOnly : Prop :=
  ∀ (s : State) (rest : List Event) (m : ModSet), s.rst = false → s.phase = .idle → s.hcCount ≠ s.lastSeen →
    (s.hcFrame.getLsbD 0 = true ∨ regLookup s.cfg.regTable (scanCode s.hcFrame) = noKey) →
    m = (if s.hcFrame.getLsbD 0 then modsAfterRelease s.cfg.modTable (scanCode s.hcFrame) s.mods
      else modsAfterPress s.cfg.modTable (scanCode s.hcFrame) s.mods) →
    s.stimulus = List.replicate 2 (.clk true) ++ rest →
    Host.Core.run Sys2Proof.core 2 s = .next
      { s with
        lastSeen := s.hcCount, mods := m, pendKey := 0x00#8, phase := .idle
        trace := s.trace ++ [m.setWidth 9], ms := m, reports := s.reports ++ [(m, s.ks)], stimulus := rest }

/-- 70_reset_and_hazards.md section 5: a quiescent state stays quiescent under every event but the tenth edge of a frame,
and a `clk` in it changes nothing. -/
def Obligations.QuiescentUntilPublish : Prop :=
  ∀ s : State, s.quiescent = true →
    (∀ r, s.nextEvent = .clk r → step s = .next s.afterDraw) ∧
    (∀ t, step s = .next t → (∀ d, s.nextEvent = .kbdFall d → s.bc.val < 9) → t.quiescent = true)

/-- 70_reset_and_hazards.md section 5: from any state outside reset, `clk`s of which seven are accepted reach quiescence,
the holds between them not counted. -/
def Obligations.QuiescentWithinSevenAcceptedClocks : Prop :=
  ∀ (s : State) (rs : List Bool) (rest : List Event), s.rst = false → 7 ≤ rs.count true →
    s.stimulus = rs.map Event.clk ++ rest →
    ∃ n t, n ≤ rs.length ∧ Host.Core.run Sys2Proof.core n s = .next t ∧ t.quiescent = true

/-- The model's way to present an operation (log 2): in the state `presenting` makes, the very next step presents a value
that decodes to the operation and runs it. A transport command is executed after the report that offers its word, a report
before the command it offers (log 12), and every other operation alone. -/
def Obligations.PresentedOperationIsRun : Prop :=
  ∀ (s : State) (i : Instr), i.wellFormed = true →
    let p := s.presenting i
    ∃ before v after a b t,
      p.ready.presents p.nextEvent = before ++ v :: after ∧ decode v = .ok i ∧
      (before = [] ∨ i = .setKeyNone ∨ (∃ m, i = .setMods m) ∨ ∃ k, i = .setKey k) ∧
      (after = [] ∨ i = .emitMods ∨ i = .emitKeydn ∨ i = .emitKeyup) ∧
      runPresented before p.ready = .next a ∧ exec i a = .next b ∧ runPresented after b = .next t ∧ step p = .next t
end

