-- ==== Sys2Proof/Laws/Decode.lean ====
section
/-! SUPPORT. What the decoder reads from the words the block itself forms: phases, frames, command words. -/

namespace Sys2Proof

@[simp] theorem phaseOf_bits (p : Phase) : phaseOf p.bits = p := by cases p <;> rfl

/-- The bits of a frame put together from its fields. -/
theorem frameOf_getLsbD (scHi : BitVec 9) (rel : BitVec 1) (i : Nat) :
    (frameOf scHi rel).getLsbD i = if i < 1 then rel.getLsbD i else scHi.getLsbD (i - 1) :=
  BitVec.getLsbD_append

/-- The parity of a frame put together from its fields is its release bit. -/
theorem frameOf_toNat_mod (scHi : BitVec 9) (rel : BitVec 1) :
    decide ((frameOf scHi rel).toNat % 2 = 1) = rel.getLsbD 0 := by
  rw [← Nat.testBit_zero, BitVec.testBit_toNat, frameOf_getLsbD]; rfl

/-- The bits of a command word put together from its fields. -/
theorem cmdWord_getLsbD (c : BitVec 1) (arg : BitVec 8) (i : Nat) :
    (cmdWord c arg).getLsbD i = if i < 8 then arg.getLsbD i else c.getLsbD (i - 8) :=
  BitVec.getLsbD_append

/-- A frame is its release bit and its field `f[9:1]`. -/
theorem frameOf_upperBits (f : Frame) (rel : BitVec 1) (h : f.getLsbD 0 = rel.getLsbD 0) :
    frameOf (upperBits f) rel = f := by
  apply BitVec.eq_of_getLsbD_eq
  intro i hi
  rw [frameOf_getLsbD]
  rcases i with _ | i
  · exact h.symm
  · have : i < 9 := by omega
    simp [upperBits, this, Nat.add_comm]

/-- The fields of a frame put together from them. -/
@[simp] theorem upperBits_frameOf (scHi : BitVec 9) (rel : BitVec 1) : upperBits (frameOf scHi rel) = scHi := by
  apply BitVec.eq_of_getLsbD_eq
  intro i hi
  rw [upperBits, BitVec.getLsbD_extractLsb', frameOf_getLsbD]
  simp [hi]

@[simp] theorem relFlag_frameOf (scHi : BitVec 9) (rel : BitVec 1) : relFlag (frameOf scHi rel) = rel.getLsbD 0 :=
  frameOf_getLsbD scHi rel 0

theorem frameOf_upperBits_press (f : Frame) (h : relFlag f = false) : frameOf (upperBits f) 0#1 = f :=
  frameOf_upperBits f 0#1 h

theorem frameOf_upperBits_release (f : Frame) (h : relFlag f = true) : frameOf (upperBits f) 1#1 = f :=
  frameOf_upperBits f 1#1 h

@[simp] theorem cmdBit_cmdWord (c : BitVec 1) (arg : BitVec 8) : cmdBit (cmdWord c arg) = c.getLsbD 0 :=
  cmdWord_getLsbD c arg 8

@[simp] theorem cmdArg_cmdWord (c : BitVec 1) (arg : BitVec 8) : cmdArg (cmdWord c arg) = arg := by
  apply BitVec.eq_of_getLsbD_eq
  intro i hi
  rw [cmdArg, BitVec.getLsbD_extractLsb', cmdWord_getLsbD]
  simp [hi]

/-- SET_MODS words decode to SET_MODS (R57). -/
@[simp] theorem decodeCmd_setMods (m : ModSet) : decodeCmd (Machine.setModsWord m) = .setMods m := by
  simp [decodeCmd, Machine.setModsWord]

/-- SET_KEY words decode to SET_KEY, and to SET_KEY.NONE when the keycode is `none` (R57). -/
theorem decodeCmd_setKey (k : Keycode) :
    decodeCmd (Machine.setKeyWord k) = if k = noKey then .setKeyNone else .setKey k := by
  simp [decodeCmd, Machine.setKeyWord]

end Sys2Proof
end

