-- ==== Sys2Proof/Laws/State.lean ====
section
/-! SUPPORT. What each update of the state does to each field, one lemma per field. -/

namespace Sys2Proof.Machine

variable (s : State)

@[simp] theorem publish_sr (f : Frame) : (s.publish f).sr = s.sr := rfl
@[simp] theorem publish_bc (f : Frame) : (s.publish f).bc = s.bc := rfl
@[simp] theorem publish_led (f : Frame) : (s.publish f).led = s.led := rfl
@[simp] theorem publish_hcFrame (f : Frame) : (s.publish f).hcFrame = f := rfl
@[simp] theorem publish_hcCount (f : Frame) : (s.publish f).hcCount = nextCount s.cfg s.hcCount := rfl
@[simp] theorem publish_lastSeen (f : Frame) : (s.publish f).lastSeen = s.lastSeen := rfl
@[simp] theorem publish_mods (f : Frame) : (s.publish f).mods = s.mods := rfl
@[simp] theorem publish_phase (f : Frame) : (s.publish f).phase = s.phase := rfl
@[simp] theorem publish_pendKey (f : Frame) : (s.publish f).pendKey = s.pendKey := rfl
@[simp] theorem publish_cfg (f : Frame) : (s.publish f).cfg = s.cfg := rfl
@[simp] theorem publish_rst (f : Frame) : (s.publish f).rst = s.rst := rfl
@[simp] theorem publish_trace (f : Frame) : (s.publish f).trace = s.trace := rfl
@[simp] theorem publish_ms (f : Frame) : (s.publish f).ms = s.ms := rfl
@[simp] theorem publish_ks (f : Frame) : (s.publish f).ks = s.ks := rfl
@[simp] theorem publish_reports (f : Frame) : (s.publish f).reports = s.reports := rfl
@[simp] theorem publish_stimulus (f : Frame) : (s.publish f).stimulus = s.stimulus := rfl
@[simp] theorem publish_draws (f : Frame) : (s.publish f).draws = s.draws := rfl

@[simp] theorem shiftIn_sr (d : BitVec 1) : (s.shiftIn d).sr = shifted s.sr d := rfl
@[simp] theorem shiftIn_bc (d : BitVec 1) : (s.shiftIn d).bc = s.bc + 1 := rfl
@[simp] theorem shiftIn_led (d : BitVec 1) : (s.shiftIn d).led = ledAfterShift s.bc s.led := rfl
@[simp] theorem shiftIn_hcFrame (d : BitVec 1) : (s.shiftIn d).hcFrame = s.hcFrame := rfl
@[simp] theorem shiftIn_hcCount (d : BitVec 1) : (s.shiftIn d).hcCount = s.hcCount := rfl
@[simp] theorem shiftIn_lastSeen (d : BitVec 1) : (s.shiftIn d).lastSeen = s.lastSeen := rfl
@[simp] theorem shiftIn_mods (d : BitVec 1) : (s.shiftIn d).mods = s.mods := rfl
@[simp] theorem shiftIn_phase (d : BitVec 1) : (s.shiftIn d).phase = s.phase := rfl
@[simp] theorem shiftIn_pendKey (d : BitVec 1) : (s.shiftIn d).pendKey = s.pendKey := rfl
@[simp] theorem shiftIn_cfg (d : BitVec 1) : (s.shiftIn d).cfg = s.cfg := rfl
@[simp] theorem shiftIn_rst (d : BitVec 1) : (s.shiftIn d).rst = s.rst := rfl
@[simp] theorem shiftIn_trace (d : BitVec 1) : (s.shiftIn d).trace = s.trace := rfl
@[simp] theorem shiftIn_ms (d : BitVec 1) : (s.shiftIn d).ms = s.ms := rfl
@[simp] theorem shiftIn_ks (d : BitVec 1) : (s.shiftIn d).ks = s.ks := rfl
@[simp] theorem shiftIn_reports (d : BitVec 1) : (s.shiftIn d).reports = s.reports := rfl
@[simp] theorem shiftIn_stimulus (d : BitVec 1) : (s.shiftIn d).stimulus = s.stimulus := rfl
@[simp] theorem shiftIn_draws (d : BitVec 1) : (s.shiftIn d).draws = s.draws := rfl

@[simp] theorem completeFrame_sr (d : BitVec 1) : (s.completeFrame d).sr = 0x000#10 := rfl
@[simp] theorem completeFrame_bc (d : BitVec 1) : (s.completeFrame d).bc = 0 := rfl
@[simp] theorem completeFrame_led (d : BitVec 1) : (s.completeFrame d).led = false := rfl
@[simp] theorem completeFrame_hcFrame (d : BitVec 1) : (s.completeFrame d).hcFrame = shifted s.sr d := rfl
@[simp] theorem completeFrame_hcCount (d : BitVec 1) : (s.completeFrame d).hcCount = nextCount s.cfg s.hcCount := rfl
@[simp] theorem completeFrame_lastSeen (d : BitVec 1) : (s.completeFrame d).lastSeen = s.lastSeen := rfl
@[simp] theorem completeFrame_mods (d : BitVec 1) : (s.completeFrame d).mods = s.mods := rfl
@[simp] theorem completeFrame_phase (d : BitVec 1) : (s.completeFrame d).phase = s.phase := rfl
@[simp] theorem completeFrame_pendKey (d : BitVec 1) : (s.completeFrame d).pendKey = s.pendKey := rfl
@[simp] theorem completeFrame_cfg (d : BitVec 1) : (s.completeFrame d).cfg = s.cfg := rfl
@[simp] theorem completeFrame_rst (d : BitVec 1) : (s.completeFrame d).rst = s.rst := rfl
@[simp] theorem completeFrame_trace (d : BitVec 1) : (s.completeFrame d).trace = s.trace := rfl
@[simp] theorem completeFrame_ms (d : BitVec 1) : (s.completeFrame d).ms = s.ms := rfl
@[simp] theorem completeFrame_ks (d : BitVec 1) : (s.completeFrame d).ks = s.ks := rfl
@[simp] theorem completeFrame_reports (d : BitVec 1) : (s.completeFrame d).reports = s.reports := rfl
@[simp] theorem completeFrame_stimulus (d : BitVec 1) : (s.completeFrame d).stimulus = s.stimulus := rfl
@[simp] theorem completeFrame_draws (d : BitVec 1) : (s.completeFrame d).draws = s.draws := rfl

@[simp] theorem taken_sr (c : Nat) (m : ModSet) (k : Keycode) : (s.taken c m k).sr = s.sr := rfl
@[simp] theorem taken_bc (c : Nat) (m : ModSet) (k : Keycode) : (s.taken c m k).bc = s.bc := rfl
@[simp] theorem taken_led (c : Nat) (m : ModSet) (k : Keycode) : (s.taken c m k).led = s.led := rfl
@[simp] theorem taken_hcFrame (c : Nat) (m : ModSet) (k : Keycode) : (s.taken c m k).hcFrame = s.hcFrame := rfl
@[simp] theorem taken_hcCount (c : Nat) (m : ModSet) (k : Keycode) : (s.taken c m k).hcCount = s.hcCount := rfl
@[simp] theorem taken_lastSeen (c : Nat) (m : ModSet) (k : Keycode) : (s.taken c m k).lastSeen = c := rfl
@[simp] theorem taken_mods (c : Nat) (m : ModSet) (k : Keycode) : (s.taken c m k).mods = m := rfl
@[simp] theorem taken_phase (c : Nat) (m : ModSet) (k : Keycode) : (s.taken c m k).phase = .mods := rfl
@[simp] theorem taken_pendKey (c : Nat) (m : ModSet) (k : Keycode) : (s.taken c m k).pendKey = k := rfl
@[simp] theorem taken_cfg (c : Nat) (m : ModSet) (k : Keycode) : (s.taken c m k).cfg = s.cfg := rfl
@[simp] theorem taken_rst (c : Nat) (m : ModSet) (k : Keycode) : (s.taken c m k).rst = s.rst := rfl
@[simp] theorem taken_trace (c : Nat) (m : ModSet) (k : Keycode) : (s.taken c m k).trace = s.trace := rfl
@[simp] theorem taken_ms (c : Nat) (m : ModSet) (k : Keycode) : (s.taken c m k).ms = s.ms := rfl
@[simp] theorem taken_ks (c : Nat) (m : ModSet) (k : Keycode) : (s.taken c m k).ks = s.ks := rfl
@[simp] theorem taken_reports (c : Nat) (m : ModSet) (k : Keycode) : (s.taken c m k).reports = s.reports := rfl
@[simp] theorem taken_stimulus (c : Nat) (m : ModSet) (k : Keycode) : (s.taken c m k).stimulus = s.stimulus := rfl
@[simp] theorem taken_draws (c : Nat) (m : ModSet) (k : Keycode) : (s.taken c m k).draws = s.draws := rfl

@[simp] theorem emit_sr (w : CmdWord) (p : Phase) : (s.emit w p).sr = s.sr := rfl
@[simp] theorem emit_bc (w : CmdWord) (p : Phase) : (s.emit w p).bc = s.bc := rfl
@[simp] theorem emit_led (w : CmdWord) (p : Phase) : (s.emit w p).led = s.led := rfl
@[simp] theorem emit_hcFrame (w : CmdWord) (p : Phase) : (s.emit w p).hcFrame = s.hcFrame := rfl
@[simp] theorem emit_hcCount (w : CmdWord) (p : Phase) : (s.emit w p).hcCount = s.hcCount := rfl
@[simp] theorem emit_lastSeen (w : CmdWord) (p : Phase) : (s.emit w p).lastSeen = s.lastSeen := rfl
@[simp] theorem emit_mods (w : CmdWord) (p : Phase) : (s.emit w p).mods = s.mods := rfl
@[simp] theorem emit_phase (w : CmdWord) (p : Phase) : (s.emit w p).phase = p := rfl
@[simp] theorem emit_pendKey (w : CmdWord) (p : Phase) : (s.emit w p).pendKey = s.pendKey := rfl
@[simp] theorem emit_cfg (w : CmdWord) (p : Phase) : (s.emit w p).cfg = s.cfg := rfl
@[simp] theorem emit_rst (w : CmdWord) (p : Phase) : (s.emit w p).rst = s.rst := rfl
@[simp] theorem emit_trace (w : CmdWord) (p : Phase) : (s.emit w p).trace = s.trace ++ [w] := rfl
@[simp] theorem emit_ms (w : CmdWord) (p : Phase) : (s.emit w p).ms = s.ms := rfl
@[simp] theorem emit_ks (w : CmdWord) (p : Phase) : (s.emit w p).ks = s.ks := rfl
@[simp] theorem emit_reports (w : CmdWord) (p : Phase) : (s.emit w p).reports = s.reports := rfl
@[simp] theorem emit_stimulus (w : CmdWord) (p : Phase) : (s.emit w p).stimulus = s.stimulus := rfl
@[simp] theorem emit_draws (w : CmdWord) (p : Phase) : (s.emit w p).draws = s.draws := rfl

@[simp] theorem transmit_sr (m : ModSet) (k : Keycode) : (s.transmit m k).sr = s.sr := rfl
@[simp] theorem transmit_bc (m : ModSet) (k : Keycode) : (s.transmit m k).bc = s.bc := rfl
@[simp] theorem transmit_led (m : ModSet) (k : Keycode) : (s.transmit m k).led = s.led := rfl
@[simp] theorem transmit_hcFrame (m : ModSet) (k : Keycode) : (s.transmit m k).hcFrame = s.hcFrame := rfl
@[simp] theorem transmit_hcCount (m : ModSet) (k : Keycode) : (s.transmit m k).hcCount = s.hcCount := rfl
@[simp] theorem transmit_lastSeen (m : ModSet) (k : Keycode) : (s.transmit m k).lastSeen = s.lastSeen := rfl
@[simp] theorem transmit_mods (m : ModSet) (k : Keycode) : (s.transmit m k).mods = s.mods := rfl
@[simp] theorem transmit_phase (m : ModSet) (k : Keycode) : (s.transmit m k).phase = s.phase := rfl
@[simp] theorem transmit_pendKey (m : ModSet) (k : Keycode) : (s.transmit m k).pendKey = s.pendKey := rfl
@[simp] theorem transmit_cfg (m : ModSet) (k : Keycode) : (s.transmit m k).cfg = s.cfg := rfl
@[simp] theorem transmit_rst (m : ModSet) (k : Keycode) : (s.transmit m k).rst = s.rst := rfl
@[simp] theorem transmit_trace (m : ModSet) (k : Keycode) : (s.transmit m k).trace = s.trace := rfl
@[simp] theorem transmit_ms (m : ModSet) (k : Keycode) : (s.transmit m k).ms = m := rfl
@[simp] theorem transmit_ks (m : ModSet) (k : Keycode) : (s.transmit m k).ks = k := rfl
@[simp] theorem transmit_reports (m : ModSet) (k : Keycode) : (s.transmit m k).reports = s.reports ++ [(m, k)] := rfl
@[simp] theorem transmit_stimulus (m : ModSet) (k : Keycode) : (s.transmit m k).stimulus = s.stimulus := rfl
@[simp] theorem transmit_draws (m : ModSet) (k : Keycode) : (s.transmit m k).draws = s.draws := rfl

@[simp] theorem resetRegisters_sr : (s.resetRegisters).sr = 0x000#10 := rfl
@[simp] theorem resetRegisters_bc : (s.resetRegisters).bc = 0 := rfl
@[simp] theorem resetRegisters_led : (s.resetRegisters).led = false := rfl
@[simp] theorem resetRegisters_hcFrame : (s.resetRegisters).hcFrame = 0x000#10 := rfl
@[simp] theorem resetRegisters_hcCount : (s.resetRegisters).hcCount = 0 := rfl
@[simp] theorem resetRegisters_lastSeen : (s.resetRegisters).lastSeen = 0 := rfl
@[simp] theorem resetRegisters_mods : (s.resetRegisters).mods = 0x00#8 := rfl
@[simp] theorem resetRegisters_phase : (s.resetRegisters).phase = .idle := rfl
@[simp] theorem resetRegisters_pendKey : (s.resetRegisters).pendKey = noKey := rfl
@[simp] theorem resetRegisters_cfg : (s.resetRegisters).cfg = s.cfg := rfl
@[simp] theorem resetRegisters_rst : (s.resetRegisters).rst = s.rst := rfl
@[simp] theorem resetRegisters_trace : (s.resetRegisters).trace = s.trace := rfl
@[simp] theorem resetRegisters_ms : (s.resetRegisters).ms = s.ms := rfl
@[simp] theorem resetRegisters_ks : (s.resetRegisters).ks = s.ks := rfl
@[simp] theorem resetRegisters_reports : (s.resetRegisters).reports = s.reports := rfl
@[simp] theorem resetRegisters_stimulus : (s.resetRegisters).stimulus = s.stimulus := rfl
@[simp] theorem resetRegisters_draws : (s.resetRegisters).draws = s.draws := rfl

@[simp] theorem place_sr (e : Event) : (s.place e).sr = s.sr := rfl
@[simp] theorem place_bc (e : Event) : (s.place e).bc = s.bc := rfl
@[simp] theorem place_led (e : Event) : (s.place e).led = s.led := rfl
@[simp] theorem place_hcFrame (e : Event) : (s.place e).hcFrame = s.hcFrame := rfl
@[simp] theorem place_hcCount (e : Event) : (s.place e).hcCount = s.hcCount := rfl
@[simp] theorem place_lastSeen (e : Event) : (s.place e).lastSeen = s.lastSeen := rfl
@[simp] theorem place_mods (e : Event) : (s.place e).mods = s.mods := rfl
@[simp] theorem place_phase (e : Event) : (s.place e).phase = s.phase := rfl
@[simp] theorem place_pendKey (e : Event) : (s.place e).pendKey = s.pendKey := rfl
@[simp] theorem place_cfg (e : Event) : (s.place e).cfg = s.cfg := rfl
@[simp] theorem place_rst (e : Event) : (s.place e).rst = s.rst := rfl
@[simp] theorem place_trace (e : Event) : (s.place e).trace = s.trace := rfl
@[simp] theorem place_ms (e : Event) : (s.place e).ms = s.ms := rfl
@[simp] theorem place_ks (e : Event) : (s.place e).ks = s.ks := rfl
@[simp] theorem place_reports (e : Event) : (s.place e).reports = s.reports := rfl
@[simp] theorem place_stimulus (e : Event) : (s.place e).stimulus = e :: s.stimulus := rfl
@[simp] theorem place_draws (e : Event) : (s.place e).draws = s.draws := rfl

@[simp] theorem afterDraw_sr : s.afterDraw.sr = s.sr := by unfold State.afterDraw; split <;> rfl
@[simp] theorem afterDraw_bc : s.afterDraw.bc = s.bc := by unfold State.afterDraw; split <;> rfl
@[simp] theorem afterDraw_led : s.afterDraw.led = s.led := by unfold State.afterDraw; split <;> rfl
@[simp] theorem afterDraw_hcFrame : s.afterDraw.hcFrame = s.hcFrame := by unfold State.afterDraw; split <;> rfl
@[simp] theorem afterDraw_hcCount : s.afterDraw.hcCount = s.hcCount := by unfold State.afterDraw; split <;> rfl
@[simp] theorem afterDraw_lastSeen : s.afterDraw.lastSeen = s.lastSeen := by unfold State.afterDraw; split <;> rfl
@[simp] theorem afterDraw_mods : s.afterDraw.mods = s.mods := by unfold State.afterDraw; split <;> rfl
@[simp] theorem afterDraw_phase : s.afterDraw.phase = s.phase := by unfold State.afterDraw; split <;> rfl
@[simp] theorem afterDraw_pendKey : s.afterDraw.pendKey = s.pendKey := by unfold State.afterDraw; split <;> rfl
@[simp] theorem afterDraw_cfg : s.afterDraw.cfg = s.cfg := by unfold State.afterDraw; split <;> rfl
@[simp] theorem afterDraw_rst : s.afterDraw.rst = s.rst := by unfold State.afterDraw; split <;> rfl
@[simp] theorem afterDraw_trace : s.afterDraw.trace = s.trace := by unfold State.afterDraw; split <;> rfl
@[simp] theorem afterDraw_ms : s.afterDraw.ms = s.ms := by unfold State.afterDraw; split <;> rfl
@[simp] theorem afterDraw_ks : s.afterDraw.ks = s.ks := by unfold State.afterDraw; split <;> rfl
@[simp] theorem afterDraw_reports : s.afterDraw.reports = s.reports := by unfold State.afterDraw; split <;> rfl

@[simp] theorem applyPins_sr (e : Event) : (s.applyPins e).sr = s.sr := by cases e <;> rfl
@[simp] theorem applyPins_bc (e : Event) : (s.applyPins e).bc = s.bc := by cases e <;> rfl
@[simp] theorem applyPins_led (e : Event) : (s.applyPins e).led = s.led := by cases e <;> rfl
@[simp] theorem applyPins_hcFrame (e : Event) : (s.applyPins e).hcFrame = s.hcFrame := by cases e <;> rfl
@[simp] theorem applyPins_hcCount (e : Event) : (s.applyPins e).hcCount = s.hcCount := by cases e <;> rfl
@[simp] theorem applyPins_lastSeen (e : Event) : (s.applyPins e).lastSeen = s.lastSeen := by cases e <;> rfl
@[simp] theorem applyPins_mods (e : Event) : (s.applyPins e).mods = s.mods := by cases e <;> rfl
@[simp] theorem applyPins_phase (e : Event) : (s.applyPins e).phase = s.phase := by cases e <;> rfl
@[simp] theorem applyPins_pendKey (e : Event) : (s.applyPins e).pendKey = s.pendKey := by cases e <;> rfl
@[simp] theorem applyPins_cfg (e : Event) : (s.applyPins e).cfg = s.cfg := by cases e <;> rfl
@[simp] theorem applyPins_trace (e : Event) : (s.applyPins e).trace = s.trace := by cases e <;> rfl
@[simp] theorem applyPins_ms (e : Event) : (s.applyPins e).ms = s.ms := by cases e <;> rfl
@[simp] theorem applyPins_ks (e : Event) : (s.applyPins e).ks = s.ks := by cases e <;> rfl
@[simp] theorem applyPins_reports (e : Event) : (s.applyPins e).reports = s.reports := by cases e <;> rfl
@[simp] theorem applyPins_stimulus (e : Event) : (s.applyPins e).stimulus = s.stimulus := by cases e <;> rfl
@[simp] theorem applyPins_draws (e : Event) : (s.applyPins e).draws = s.draws := by cases e <;> rfl

@[simp] theorem applyPins_rst_level (level : Bool) : s.applyPins (.rst level) = { s with rst := level } := rfl
@[simp] theorem applyPins_kbdFall (d : BitVec 1) : s.applyPins (.kbdFall d) = s := rfl
@[simp] theorem applyPins_kbdRise : s.applyPins .kbdRise = s := rfl
@[simp] theorem applyPins_clk (txReady : Bool) : s.applyPins (.clk txReady) = s := rfl

@[simp] theorem place_nextEvent (e : Event) : (s.place e).nextEvent = e := rfl
@[simp] theorem place_afterDraw (e : Event) : (s.place e).afterDraw = s := rfl

/-- The event of a step is the head of the stimulus, and the draw drops it. -/
theorem nextEvent_cons (e : Event) (es : List Event) (h : s.stimulus = e :: es) : s.nextEvent = e := by
  simp [State.nextEvent, h]

theorem afterDraw_cons (e : Event) (es : List Event) (h : s.stimulus = e :: es) :
    s.afterDraw = { s with stimulus := es } := by
  simp [State.afterDraw, h]

/-- With no stimulus left, the event is the free value of the counter, and the counter advances. -/
theorem nextEvent_nil (h : s.stimulus = []) : s.nextEvent = Config.freeEvent s.draws := by
  simp [State.nextEvent, h]

theorem afterDraw_nil (h : s.stimulus = []) : s.afterDraw = { s with draws := s.draws + 1 } := by
  simp [State.afterDraw, h]

end Sys2Proof.Machine
end

