-- ==== Sys2Proof/Laws/Ops.lean ====
section
/-! SUPPORT. What each shared operation can do, once. -/

namespace Sys2Proof.Machine

/-- A Processor step answers a next state in two cases: no step occurs in reset, or its condition holds and its effect is
taken. -/
theorem processorStep_next {s after t : State} {selected : Bool} (h : processorStep s selected after = .next t) :
    (s.rst = true ∧ t = s) ∨ (s.rst = false ∧ selected = true ∧ t = after) := by
  unfold processorStep at h
  cases hr : s.rst <;> cases hs : selected <;> simp_all

/-- A Processor step whose condition holds takes its effect. -/
theorem processorStep_selected {s after : State} {selected : Bool} (hr : s.rst = false) (hs : selected = true) :
    processorStep s selected after = .next after := by
  simp [processorStep, hr, hs]

/-- A Processor step whose condition fails outside reset is refused. -/
theorem processorStep_refused {s after : State} {selected : Bool} (hr : s.rst = false) (hs : selected = false) :
    processorStep s selected after = .refused .notSelected := by
  simp [processorStep, hr, hs]

/-- The Sampler shifts below nine bits. -/
theorem sample_shift {s : State} {d : BitVec 1} (h : s.bc.val < 9) : s.sample d = s.shiftIn d := by
  simp [State.sample, h]

/-- The Sampler completes a frame at nine bits. -/
theorem sample_complete {s : State} {d : BitVec 1} (h : s.bc.val = 9) : s.sample d = s.completeFrame d := by
  simp [State.sample, h]

/-- Below nine bits the bit count advances by one, without wrapping. -/
theorem shiftIn_bc_val {s : State} {d : BitVec 1} (h : s.bc.val < 9) : (s.shiftIn d).bc.val = s.bc.val + 1 := by
  have : s.bc.val + 1 < 10 := by omega
  simp [Fin.val_add, Nat.mod_eq_of_lt this]

/-- The counter's successor stays below `2 ^ COUNT_W`. -/
theorem nextCount_lt (c : Config) (n : Nat) : nextCount c n < 2 ^ c.countW :=
  Nat.mod_lt _ (Nat.two_pow_pos _)

/-- A take's condition: IDLE, a new frame, and that frame. -/
theorem takeSelected_iff {s : State} {f : Frame} :
    s.takeSelected f = true ↔ s.phase = .idle ∧ s.hcCount ≠ s.lastSeen ∧ s.hcFrame = f := by
  simp [State.takeSelected, State.newFrame, State.snapshot, and_assoc]

/-- The word offered in each phase (R87). -/
theorem txWord_mods {s : State} (h : s.phase = .mods) : s.txWord = setModsWord s.mods := by
  simp [State.txWord, State.txCmd, State.txArg, h, setModsWord]

theorem txWord_keydn {s : State} (h : s.phase = .keydn) : s.txWord = setKeyWord s.pendKey := by
  simp [State.txWord, State.txCmd, State.txArg, h, setKeyWord]

theorem txWord_keyup {s : State} (h : s.phase = .keyup) : s.txWord = setKeyWord noKey := by
  simp [State.txWord, State.txCmd, State.txArg, h, setKeyWord]

/-- The words the Processor offers, as bits: `{0, m}` and `{1, k}` (R57). -/
theorem setModsWord_eq : ∀ m : ModSet, setModsWord m = m.setWidth 9 := by decide

theorem setKeyWord_eq : ∀ k : Keycode, setKeyWord k = 0x100#9 ||| k.setWidth 9 := by decide

/-- The lookups, entry by entry (R45, R46). -/
@[simp] theorem modLookup_nil (sc : ScanCode) : modLookup [] sc = none := rfl

@[simp] theorem modLookup_cons (key : ScanCode) (i : ModIndex) (rest : List (ScanCode × ModIndex)) (sc : ScanCode) :
    modLookup ((key, i) :: rest) sc = if key = sc then some i else modLookup rest sc := rfl

@[simp] theorem regLookup_nil (sc : ScanCode) : regLookup [] sc = noKey := rfl

@[simp] theorem regLookup_cons (key : ScanCode) (k : Keycode) (rest : List (ScanCode × Keycode)) (sc : ScanCode) :
    regLookup ((key, k) :: rest) sc = if key = sc then k else regLookup rest sc := rfl

/-- What RegLookup answers is `none` or a keycode of the table (R58). -/
theorem regLookup_known (table : List (ScanCode × Keycode)) (sc : ScanCode) :
    regLookup table sc = noKey ∨ ∃ e ∈ table, e.2 = regLookup table sc := by
  induction table with
  | nil => exact .inl rfl
  | cons e rest ih =>
    simp only [regLookup]
    split
    · exact .inr ⟨e, by simp, rfl⟩
    · exact ih.imp id fun ⟨e', h, he⟩ => ⟨e', by simp [h], he⟩

/-- A modifier lookup that finds nothing leaves the bitset as it is (R79). -/
theorem modsAfterPress_none {table : List (ScanCode × ModIndex)} {sc : ScanCode} {m : ModSet}
    (h : modLookup table sc = none) : modsAfterPress table sc m = m := by
  simp [modsAfterPress, h]

theorem modsAfterRelease_none {table : List (ScanCode × ModIndex)} {sc : ScanCode} {m : ModSet}
    (h : modLookup table sc = none) : modsAfterRelease table sc m = m := by
  simp [modsAfterRelease, h]

/-- A modifier lookup that finds index `i` sets or clears bit `i` (R79). -/
theorem modsAfterPress_some {table : List (ScanCode × ModIndex)} {sc : ScanCode} {m : ModSet} {i : ModIndex}
    (h : modLookup table sc = some i) : modsAfterPress table sc m = m ||| modBit i := by
  simp [modsAfterPress, h]

theorem modsAfterRelease_some {table : List (ScanCode × ModIndex)} {sc : ScanCode} {m : ModSet} {i : ModIndex}
    (h : modLookup table sc = some i) : modsAfterRelease table sc m = m &&& ~~~(modBit i) := by
  simp [modsAfterRelease, h]

/-- Bit `j` of `1 << i`. -/
theorem modBit_getLsbD (i j : ModIndex) : (modBit i).getLsbD j.val = decide (i = j) := by
  revert i j; decide

end Sys2Proof.Machine
end

