-- ==== Sys2Proof/Laws/PerInstr.lean ====
section
/-! SUPPORT. The per-instruction family RowMatch: the encoded value of a well-formed operation matches its row of the
opcode table. -/

namespace Sys2Proof.Laws.RowMatch

/-- The encoded value of the operation has its row's format, its row's fixed bits, and fits the format. -/
def Statement (i : Instr) : Prop :=
  i.wellFormed = true → i.row.matches (encode i) = true ∧ (encode i).toNat < 2 ^ (encode i).format.width

theorem edge (d : BitVec 1) : Statement (.edge d) := fun _ =>
  ⟨by simp [Row.matches, Instr.row, encode, Encoded.format, Encoded.toNat], d.isLt⟩

theorem reset : Statement .reset := by unfold Statement; decide

theorem poll : Statement .poll := by unfold Statement; decide

theorem takePress (scHi : BitVec 9) : Statement (.takePress scHi) := fun _ =>
  ⟨by simpa [Row.matches, Instr.row, encode, Encoded.format, Encoded.toNat, Nat.and_one_is_mod] using
    frameOf_toNat_mod scHi 0#1, (frameOf scHi 0#1).isLt⟩

theorem takeRelease (scHi : BitVec 9) : Statement (.takeRelease scHi) := fun _ =>
  ⟨by simpa [Row.matches, Instr.row, encode, Encoded.format, Encoded.toNat, Nat.and_one_is_mod] using
    frameOf_toNat_mod scHi 1#1, (frameOf scHi 1#1).isLt⟩

theorem emitMods : Statement .emitMods := by unfold Statement; decide

theorem emitKeydn : Statement .emitKeydn := by unfold Statement; decide

theorem emitKeyup : Statement .emitKeyup := by unfold Statement; decide

theorem hold (p : Phase) : Statement (.hold p) := by cases p <;> (unfold Statement; decide)

theorem setMods (m : ModSet) : Statement (.setMods m) := by
  revert m; unfold Statement; decide

theorem setKey (k : Keycode) : Statement (.setKey k) := by
  revert k; unfold Statement; decide

theorem setKeyNone : Statement .setKeyNone := by unfold Statement; decide

end Sys2Proof.Laws.RowMatch
end

