-- ==== Sys2Proof/Laws/Step.lean ====
section
/-! SUPPORT. What a step does, event by event; and the run of presented values. -/

namespace Sys2Proof.Machine

@[simp] theorem runPresented_nil (s : State) : runPresented [] s = .next s := rfl

theorem runPresented_cons {v : Encoded} {vs : List Encoded} {s t : State} {i : Instr} (hd : decode v = .ok i)
    (he : exec i s = .next t) : runPresented (v :: vs) s = runPresented vs t := by
  simp [runPresented, hd, he]

/-- A presented run that answers a next state executed one decoded operation and then the rest. -/
theorem runPresented_cons_next {v : Encoded} {vs : List Encoded} {s u : State}
    (h : runPresented (v :: vs) s = .next u) :
    ∃ i t, decode v = .ok i ∧ exec i s = .next t ∧ runPresented vs t = .next u := by
  simp only [runPresented] at h
  split at h
  · cases h
  · split at h
    · exact ⟨_, _, ‹_›, ‹_›, h⟩
    · cases h
    · cases h

/-- One presented value runs exactly its operation. -/
theorem runPresented_single {v : Encoded} {s t : State} {i : Instr} (hd : decode v = .ok i) (he : exec i s = .next t) :
    runPresented [v] s = .next t := by
  simp [runPresented_cons hd he]

variable {s : State}

theorem step_kbdRise (h : s.nextEvent = .kbdRise) : step s = .next s.afterDraw := by
  simp [step, State.ready, h, State.presents]

theorem step_rst_high (h : s.nextEvent = .rst true) :
    step s = .next { s.afterDraw with rst := true }.resetRegisters := by
  simp [step, State.ready, h, State.presents, runPresented, decode, exec, execReset]

theorem step_rst_low (h : s.nextEvent = .rst false) : step s = .next { s.afterDraw with rst := false } := by
  simp [step, State.ready, h, State.presents]

/-- While `rst` is 1 an edge or a `clk` takes no step (R72, R121). -/
theorem step_held_in_reset (hr : s.rst = true) (h : (∃ d, s.nextEvent = .kbdFall d) ∨ ∃ r, s.nextEvent = .clk r) :
    step s = .next s.afterDraw := by
  rcases h with ⟨d, h⟩ | ⟨r, h⟩ <;> simp [step, State.ready, h, State.presents, hr]

theorem step_kbdFall {d : BitVec 1} (h : s.nextEvent = .kbdFall d) (hr : s.rst = false) :
    step s = .next (s.afterDraw.sample d) := by
  simp [step, State.ready, h, State.presents, hr, runPresented, decode, exec, execEdge]

/-- A `clk` outside reset runs what it presents. -/
theorem step_clk {r : Bool} (h : s.nextEvent = .clk r) (hr : s.rst = false) :
    step s = runPresented (s.afterDraw.clockPresents r) s.afterDraw := by
  simp [step, State.ready, h, State.presents, hr]

theorem step_poll {r : Bool} (h : s.nextEvent = .clk r) (hr : s.rst = false) (hp : s.phase = .idle)
    (hn : s.hcCount = s.lastSeen) : step s = .next s.afterDraw := by
  rw [step_clk h hr]
  simp [State.clockPresents, hp, State.newFrame, State.snapshot, hn, runPresented, decode, decodePhase, exec, execPoll,
    processorStep, hr]

theorem step_take_press {r : Bool} (h : s.nextEvent = .clk r) (hr : s.rst = false) (hp : s.phase = .idle)
    (hn : s.hcCount ≠ s.lastSeen) (hf : relFlag s.hcFrame = false) :
    step s = .next (s.afterDraw.taken s.hcCount (modsAfterPress s.cfg.modTable (scanCode s.hcFrame) s.mods)
      (regLookup s.cfg.regTable (scanCode s.hcFrame))) := by
  rw [step_clk h hr]
  simp [State.clockPresents, hp, State.newFrame, State.snapshot, hn, runPresented, decode, decodeFrame, hf, exec,
    execTakePress, processorStep, hr, State.takeSelected, frameOf_upperBits_press _ hf]

theorem step_take_release {r : Bool} (h : s.nextEvent = .clk r) (hr : s.rst = false) (hp : s.phase = .idle)
    (hn : s.hcCount ≠ s.lastSeen) (hf : relFlag s.hcFrame = true) :
    step s = .next (s.afterDraw.taken s.hcCount (modsAfterRelease s.cfg.modTable (scanCode s.hcFrame) s.mods)
      noKey) := by
  rw [step_clk h hr]
  simp [State.clockPresents, hp, State.newFrame, State.snapshot, hn, runPresented, decode, decodeFrame, hf, exec,
    execTakeRelease, processorStep, hr, State.takeSelected, frameOf_upperBits_release _ hf]

theorem step_hold (h : s.nextEvent = .clk false) (hr : s.rst = false) (hp : s.phase ≠ .idle) :
    step s = .next s.afterDraw := by
  rw [step_clk h hr]
  have hd : decodePhase s.phase false = .hold s.phase := by cases hq : s.phase <;> simp_all [decodePhase]
  simp [State.clockPresents, hp, runPresented, decode, hd, exec, execHold, processorStep, hr]

theorem step_emitMods (h : s.nextEvent = .clk true) (hr : s.rst = false) (hp : s.phase = .mods) :
    step s = .next ((s.afterDraw.emit (setModsWord s.mods) (if s.pendKey != noKey then .keydn else .idle)).transmit
      s.mods s.ks) := by
  rw [step_clk h hr]
  simp [State.clockPresents, hp, runPresented, decode, decodePhase, exec, execEmitMods, processorStep, hr,
    txWord_mods (s := s.afterDraw) (by simpa using hp), execSetMods]

theorem step_emitKeydn (h : s.nextEvent = .clk true) (hr : s.rst = false) (hp : s.phase = .keydn) :
    step s = .next ((s.afterDraw.emit (setKeyWord s.pendKey) .keyup).transmit s.ms s.pendKey) := by
  rw [step_clk h hr]
  have hw := txWord_keydn (s := s.afterDraw) (by simpa using hp)
  by_cases hk : s.pendKey = noKey <;>
    simp [State.clockPresents, hp, runPresented, decode, decodePhase, exec, execEmitKeydn, processorStep, hr, hw,
      decodeCmd_setKey, execSetKey, execSetKeyNone, hk]

theorem step_emitKeyup (h : s.nextEvent = .clk true) (hr : s.rst = false) (hp : s.phase = .keyup) :
    step s = .next ((s.afterDraw.emit (setKeyWord noKey) .idle).transmit s.ms noKey) := by
  rw [step_clk h hr]
  have hw := txWord_keyup (s := s.afterDraw) (by simpa using hp)
  simp [State.clockPresents, hp, runPresented, decode, decodePhase, exec, execEmitKeyup, processorStep, hr, hw,
    decodeCmd_setKey, execSetKeyNone]

/-- Everything a step can do, by its event and the state (R55, R65 to R68, R72, R75 to R86, R121). -/
inductive StepCase (s : State) : State → Prop where
  | rise (he : s.nextEvent = .kbdRise) : StepCase s s.afterDraw
  | resetHigh (he : s.nextEvent = .rst true) : StepCase s { s.afterDraw with rst := true }.resetRegisters
  | resetLow (he : s.nextEvent = .rst false) : StepCase s { s.afterDraw with rst := false }
  | heldEdge (d : BitVec 1) (he : s.nextEvent = .kbdFall d) (hr : s.rst = true) : StepCase s s.afterDraw
  | heldClock (r : Bool) (he : s.nextEvent = .clk r) (hr : s.rst = true) : StepCase s s.afterDraw
  | edge (d : BitVec 1) (he : s.nextEvent = .kbdFall d) (hr : s.rst = false) : StepCase s (s.afterDraw.sample d)
  | poll (r : Bool) (he : s.nextEvent = .clk r) (hr : s.rst = false) (hp : s.phase = .idle)
      (hn : s.hcCount = s.lastSeen) : StepCase s s.afterDraw
  | takePress (r : Bool) (he : s.nextEvent = .clk r) (hr : s.rst = false) (hp : s.phase = .idle)
      (hn : s.hcCount ≠ s.lastSeen) (hf : relFlag s.hcFrame = false) :
      StepCase s (s.afterDraw.taken s.hcCount (modsAfterPress s.cfg.modTable (scanCode s.hcFrame) s.mods)
        (regLookup s.cfg.regTable (scanCode s.hcFrame)))
  | takeRelease (r : Bool) (he : s.nextEvent = .clk r) (hr : s.rst = false) (hp : s.phase = .idle)
      (hn : s.hcCount ≠ s.lastSeen) (hf : relFlag s.hcFrame = true) :
      StepCase s (s.afterDraw.taken s.hcCount (modsAfterRelease s.cfg.modTable (scanCode s.hcFrame) s.mods) noKey)
  | hold (he : s.nextEvent = .clk false) (hr : s.rst = false) (hp : s.phase ≠ .idle) : StepCase s s.afterDraw
  | emitMods (he : s.nextEvent = .clk true) (hr : s.rst = false) (hp : s.phase = .mods) :
      StepCase s ((s.afterDraw.emit (setModsWord s.mods) (if s.pendKey != noKey then .keydn else .idle)).transmit
        s.mods s.ks)
  | emitKeydn (he : s.nextEvent = .clk true) (hr : s.rst = false) (hp : s.phase = .keydn) :
      StepCase s ((s.afterDraw.emit (setKeyWord s.pendKey) .keyup).transmit s.ms s.pendKey)
  | emitKeyup (he : s.nextEvent = .clk true) (hr : s.rst = false) (hp : s.phase = .keyup) :
      StepCase s ((s.afterDraw.emit (setKeyWord noKey) .idle).transmit s.ms noKey)

/-- The inversion of the step: whatever it answers, one of the cases holds. -/
theorem step_cases {t : State} (h : step s = .next t) : StepCase s t := by
  cases he : s.nextEvent with
  | kbdRise => rw [step_kbdRise he] at h; cases h; exact .rise he
  | rst level =>
    cases level
    · rw [step_rst_low he] at h; cases h; exact .resetLow he
    · rw [step_rst_high he] at h; cases h; exact .resetHigh he
  | kbdFall d =>
    cases hr : s.rst
    · rw [step_kbdFall he hr] at h; cases h; exact .edge d he hr
    · rw [step_held_in_reset hr (.inl ⟨d, he⟩)] at h; cases h; exact .heldEdge d he hr
  | clk r =>
    cases hr : s.rst
    · by_cases hp : s.phase = .idle
      · by_cases hn : s.hcCount = s.lastSeen
        · rw [step_poll he hr hp hn] at h; cases h; exact .poll r he hr hp hn
        · cases hf : relFlag s.hcFrame
          · rw [step_take_press he hr hp hn hf] at h; cases h; exact .takePress r he hr hp hn hf
          · rw [step_take_release he hr hp hn hf] at h; cases h; exact .takeRelease r he hr hp hn hf
      · cases r
        · rw [step_hold he hr hp] at h; cases h; exact .hold he hr hp
        · cases hq : s.phase
          · exact absurd hq hp
          · rw [step_emitMods he hr hq] at h; cases h; exact .emitMods he hr hq
          · rw [step_emitKeydn he hr hq] at h; cases h; exact .emitKeydn he hr hq
          · rw [step_emitKeyup he hr hq] at h; cases h; exact .emitKeyup he hr hq
    · rw [step_held_in_reset hr (.inr ⟨r, he⟩)] at h; cases h; exact .heldClock r he hr

end Sys2Proof.Machine
end

