-- ==== Sys2Proof/Laws/Run.lean ====
section
/-! SUPPORT. Runs of the machine: one step at a time, and the Sampler's part of a frame as a fold over its bits. -/

namespace Sys2Proof.Machine

@[simp] theorem run_zero (s : State) : Host.Core.run Sys2Proof.core 0 s = .next s := rfl

/-- A run whose first step answers a next state goes on from it. -/
theorem run_succ {n : Nat} {s t : State} (h : step s = .next t) :
    Host.Core.run Sys2Proof.core (n + 1) s = Host.Core.run Sys2Proof.core n t := by
  have hc : Sys2Proof.core.step s = .next t := h
  simp [Host.Core.run, hc]

/-- The first event of a stimulus is the one a step takes, and the rest is left. -/
theorem step_edge_of_stimulus {s : State} {d : BitVec 1} {es : List Event} (hr : s.rst = false)
    (h : s.stimulus = .kbdFall d :: es) : step s = .next (State.sample d { s with stimulus := es }) := by
  rw [step_kbdFall (nextEvent_cons _ _ _ h) hr, afterDraw_cons _ _ _ h]

/-- A run that answers a next state is continued by a longer run. -/
theorem run_add {m n : Nat} {s t : State} (h : Host.Core.run Sys2Proof.core m s = .next t) :
    Host.Core.run Sys2Proof.core (m + n) s = Host.Core.run Sys2Proof.core n t := by
  induction m generalizing s with
  | zero => cases h; simp
  | succ m ih =>
    rw [Nat.add_right_comm]
    cases hs : step s with
    | next u => rw [run_succ hs] at h ⊢; exact ih h
    | fault r => cases r
    | refused r =>
      have hc : Sys2Proof.core.step s = .refused r := hs
      simp [Host.Core.run, hc] at h

/-- A take, press or release: `last_seen`, the modifiers, the key due and the phase, all from one state's cell (R76). -/
theorem step_take {s : State} (h : s.takes) :
    step s = .next (s.afterDraw.taken s.hcCount (modsAfterTake s.cfg s.hcFrame s.mods)
      (keyAfterTake s.cfg s.hcFrame)) := by
  obtain ⟨⟨r, he⟩, hr, hp, hn⟩ := h
  have hn : s.hcCount ≠ s.lastSeen := by simpa [State.newFrame, State.snapshot] using hn
  cases hf : relFlag s.hcFrame
  · simp [step_take_press he hr hp hn hf, modsAfterTake, keyAfterTake, hf]
  · simp [step_take_release he hr hp hn hf, modsAfterTake, keyAfterTake, hf]

/-- The three reports at a `clk` that the transport accepts, the `clk` at the head of the stimulus. -/
theorem step_emitMods_of_stimulus {s : State} {es : List Event} (hs : s.stimulus = .clk true :: es)
    (hr : s.rst = false) (hp : s.phase = .mods) :
    step s = .next
      { s with
        stimulus := es, trace := s.trace ++ [setModsWord s.mods]
        phase := if s.pendKey != noKey then .keydn else .idle
        ms := s.mods, reports := s.reports ++ [(s.mods, s.ks)] } := by
  rw [step_emitMods (nextEvent_cons _ _ _ hs) hr hp, afterDraw_cons _ _ _ hs]; rfl

theorem step_emitKeydn_of_stimulus {s : State} {es : List Event} (hs : s.stimulus = .clk true :: es)
    (hr : s.rst = false) (hp : s.phase = .keydn) :
    step s = .next
      { s with
        stimulus := es, trace := s.trace ++ [setKeyWord s.pendKey], phase := .keyup
        ks := s.pendKey, reports := s.reports ++ [(s.ms, s.pendKey)] } := by
  rw [step_emitKeydn (nextEvent_cons _ _ _ hs) hr hp, afterDraw_cons _ _ _ hs]; rfl

theorem step_emitKeyup_of_stimulus {s : State} {es : List Event} (hs : s.stimulus = .clk true :: es)
    (hr : s.rst = false) (hp : s.phase = .keyup) :
    step s = .next
      { s with
        stimulus := es, trace := s.trace ++ [setKeyWord noKey], phase := .idle
        ks := noKey, reports := s.reports ++ [(s.ms, noKey)] } := by
  rw [step_emitKeyup (nextEvent_cons _ _ _ hs) hr hp, afterDraw_cons _ _ _ hs]; rfl

end Sys2Proof.Machine
end

