-- ==== Sys2Proof/Tests/Slice0.lean ====
section
/-! SUPPORT. Tests: expected values from 95_test_vectors.md and the rules' own examples, each named; the well-formedness
smoke; a word for every constructor; and a witness for every statement that has hypotheses. -/

namespace Sys2Proof.Tests

open Sys2Proof.Machine

/-- The illustrative configuration CFG_EX (95_test_vectors.md section 2), initial slots (0x00, none). -/
def cfgEx : Config where
  topCountBit := 7
  regTable := [(0x178#10, 0x04#8), (0x10C#10, 0x05#8)]
  modTable := [(0x1B8#10, 0), (0x154#10, 1)]
  hostMods := 0x00#8
  hostKey := noKey

/-- S_RST under CFG_EX. -/
def sRst : State := State.resetWith cfgEx

/-- "frame f published": the cell holds (f, `last_seen` + 1) (95_test_vectors.md section 4). -/
def published (f : Frame) (mods : ModSet) : State := { sRst with hcFrame := f, hcCount := 1, mods := mods }

/-- The Processor in a phase. -/
def inPhase (p : Phase) (mods : ModSet) (key : Keycode) : State :=
  { sRst with phase := p, mods := mods, pendKey := key }

/-- The Sampler with some bits of a frame. -/
def partFrame (sr : Frame) (bc : BitCount) : State := { sRst with sr := sr, bc := bc, led := true }

/-- An answer is a next state of which `p` holds. -/
def nextIs (a : Answer) (p : State → Bool) : Bool :=
  match a with
  | .next t => p t
  | .fault _ => false
  | .refused _ => false

/-- An answer is this refusal. -/
def refusedWith (a : Answer) (r : Refusal) : Bool :=
  match a with
  | .next _ => false
  | .fault _ => false
  | .refused q => q == r

/-! ## Well-formedness: the two ill-formed terms -/

theorem test_hold_idle_ill_formed : (Instr.hold .idle).wellFormed = false := by decide
theorem test_setKey_none_ill_formed : (Instr.setKey noKey).wellFormed = false := by decide
theorem test_hold_keyup_well_formed : (Instr.hold .keyup).wellFormed = true := by decide

/-! ## Decoding: one word for every constructor, from R24, R52, R57 and the frame table of 95_test_vectors.md -/

theorem test_decode_edge : decode (.edge 0b1#1) = .ok (.edge 1#1) := by decide
theorem test_decode_reset : decode (.signal 0b1#1) = .ok .reset := by decide
theorem test_decode_signal_low : decode (.signal 0b0#1) = .error .signalLow := by decide
theorem test_decode_poll : decode (.phase 0b00#2 true) = .ok .poll := by decide
theorem test_decode_emitMods : decode (.phase 0b01#2 true) = .ok .emitMods := by decide
theorem test_decode_emitKeydn : decode (.phase 0b10#2 true) = .ok .emitKeydn := by decide
theorem test_decode_emitKeyup : decode (.phase 0b11#2 true) = .ok .emitKeyup := by decide
theorem test_decode_hold_mods : decode (.phase 0b01#2 false) = .ok (.hold .mods) := by decide
theorem test_decode_hold_keyup : decode (.phase 0b11#2 false) = .ok (.hold .keyup) := by decide
/-- Frame 0x10C, bits 0 1 0 0 0 0 1 1 0 0: press, `f[9:1]` = 0 1 0 0 0 0 1 1 0. -/
theorem test_decode_takePress : decode (.frame 0b0100001100#10) = .ok (.takePress 0b010000110#9) := by decide
/-- Frame 0x3FF, all ones: release, `f[9:1]` all ones. -/
theorem test_decode_takeRelease : decode (.frame 0b1111111111#10) = .ok (.takeRelease 0b111111111#9) := by decide
/-- T1: SET_MODS(0xFF) = 0x0FF, SET_KEY(0x05) = 0x105, SET_KEY(none) = 0x100. -/
theorem test_decode_setMods : decode (.cmd 0b011111111#9) = .ok (.setMods 0xFF#8) := by decide
theorem test_decode_setKey : decode (.cmd 0b100000101#9) = .ok (.setKey 0x05#8) := by decide
theorem test_decode_setKeyNone : decode (.cmd 0b100000000#9) = .ok .setKeyNone := by decide
theorem test_decode_too_wide : decodeNat .frame true 1024 = .error .tooWide := by decide

/-! ## Table words, and the first step after reset -/

theorem test_table_phase : decodeTableWord 8 0x2 = some .emitKeydn := by decide
theorem test_table_frame : decodeTableWord 10 0x179 = some (.takeRelease 0x0BC#9) := by decide
theorem test_table_cmd : decodeTableWord 16 0x104 = some (.setKey 0x04#8) := by decide
theorem test_fetch_poll : nextIs (step (State.reset.withFetchWord 8 0x0)) (fun t => t.phase == .idle) = true := by decide
theorem test_fetch_emitKeyup :
    nextIs (step (State.reset.withFetchWord 8 0x3)) (fun t => t.trace == [0x100#9]) = true := by decide
theorem test_fetch_takePress :
    nextIs (step (State.reset.withFetchWord 10 0x178)) (fun t => t.phase == .mods && t.lastSeen == 0) = true := by decide
theorem test_fetch_setKey :
    nextIs (step (State.reset.withFetchWord 16 0x105)) (fun t => t.trace == [0x105#9] && t.ks == 0x05#8) = true := by
  decide

/-! ## The Sampler -/

/-- R66's example. -/
theorem test_edge_shift :
    nextIs (exec (.edge 1#1) (partFrame 0x005#10 3)) (fun t => t.sr == 0x00B#10 && t.bc == 4 && t.led) = true := by decide
/-- S3: the first bit sets `led` although it is 0. -/
theorem test_edge_first_bit :
    nextIs (exec (.edge 0#1) sRst) (fun t => t.sr == 0x000#10 && t.bc == 1 && t.led) = true := by decide
/-- R67's example, with S6's wrap of the count. -/
theorem test_edge_complete_wraps :
    nextIs (exec (.edge 0#1) { partFrame 0x0BC#10 9 with hcCount := 0xFF })
      (fun t => t.hcFrame == 0x178#10 && t.hcCount == 0x00 && t.sr == 0#10 && t.bc == 0 && !t.led) = true := by decide
/-- S6 with COUNT_W = 1: a publish from count 1 gives 0. -/
theorem test_edge_complete_toggle :
    nextIs (exec (.edge 0#1) { partFrame 0x0BC#10 9 with cfg := { cfgEx with topCountBit := 0 }, hcCount := 1 })
      (fun t => t.hcCount == 0) = true := by decide
/-- S9: edges held off by reset. -/
theorem test_edge_in_reset :
    nextIs (step ({ sRst with rst := true }.place (.kbdFall 1#1))) (fun t => t.bc == 0 && !t.led) = true := by decide

/-! ## The Processor -/

/-- P1. -/
theorem test_poll : exec .poll { sRst with hcCount := 3, lastSeen := 3 } =
    .next { sRst with hcCount := 3, lastSeen := 3 } := rfl
/-- P2a. -/
theorem test_take_press :
    nextIs (step ((published 0x178#10 0x00#8).place (.clk true)))
      (fun t => t.lastSeen == 1 && t.mods == 0x00#8 && t.phase == .mods && t.pendKey == 0x04#8) = true := by decide
/-- P15: `last_seen` takes the snapshot's count, not its own successor. -/
theorem test_take_press_coalesced :
    nextIs (exec (.takePress 0x086#9) { sRst with lastSeen := 5, hcFrame := 0x10C#10, hcCount := 8 })
      (fun t => t.lastSeen == 8 && t.pendKey == 0x05#8) = true := by decide
/-- P5: the release clears its own bit. -/
theorem test_take_release :
    nextIs (exec (.takeRelease 0x0DC#9) (published 0x1B9#10 0x01#8))
      (fun t => t.mods == 0x00#8 && t.pendKey == noKey && t.phase == .mods) = true := by decide
/-- P8: a spurious release leaves the other bit. -/
theorem test_take_release_spurious :
    nextIs (exec (.takeRelease 0x0DC#9) (published 0x1B9#10 0x02#8)) (fun t => t.mods == 0x02#8) = true := by decide
/-- R83's example. -/
theorem test_emitMods :
    nextIs (exec .emitMods (inPhase .mods 0x01#8 noKey)) (fun t => t.trace == [0x001#9] && t.phase == .idle) = true := by
  decide
/-- P16, the accepted step: a key is due next, and the host's slots take the bitset. -/
theorem test_emitMods_key_due :
    nextIs (step ((inPhase .mods 0x01#8 0x04#8).place (.clk true)))
      (fun t => t.trace == [0x001#9] && t.phase == .keydn && t.reports == [(0x01#8, noKey)]) = true := by decide
/-- P17, the accepted step. -/
theorem test_emitKeydn :
    nextIs (step ((inPhase .keydn 0x00#8 0x05#8).place (.clk true)))
      (fun t => t.trace == [0x105#9] && t.phase == .keyup && t.ks == 0x05#8) = true := by decide
/-- P18, the accepted step: `pend_key` stays. -/
theorem test_emitKeyup :
    nextIs (step ((inPhase .keyup 0x00#8 0x05#8).place (.clk true)))
      (fun t => t.trace == [0x100#9] && t.phase == .idle && t.pendKey == 0x05#8 && t.ks == noKey) = true := by decide
/-- P16, a stall: SET_MODS(0x01) stays offered. -/
theorem test_hold :
    nextIs (step ((inPhase .mods 0x01#8 0x04#8).place (.clk false)))
      (fun t => t.trace == [] && t.phase == .mods && t.txValid && t.txCmd == 0#1 && t.txArg == 0x01#8) = true := by decide
/-- P19: the cell is not read while holding. -/
theorem test_hold_new_frame :
    nextIs (step ({ inPhase .mods 0x00#8 noKey with hcFrame := 0x178#10, hcCount := 1 }.place (.clk false)))
      (fun t => t.lastSeen == 0 && t.phase == .mods) = true := by decide
/-- An operation executed where the state selects another one is refused. -/
theorem test_unselected : refusedWith (exec .emitKeydn sRst) .notSelected = true := by decide

/-! ## The tables -/

/-- P20: a key in both tables changes `mods` and taps. -/
theorem test_both_tables :
    nextIs (exec (.takePress 0x0BC#9)
        { published 0x178#10 0x00#8 with
          cfg := { cfgEx with regTable := [(0x178#10, 0x04#8)], modTable := [(0x178#10, 2)] } })
      (fun t => t.mods == 0x04#8 && t.pendKey == 0x04#8) = true := by decide
/-- P21, P22: the first match wins. -/
theorem test_first_match :
    regLookup [(0x178#10, 0x04#8), (0x178#10, 0x05#8)] 0x178#10 = 0x04#8 ∧
    modLookup [(0x1B8#10, 0), (0x1B8#10, 3)] 0x1B8#10 = some 0 := by decide
/-- P25: the highest modifier bit. -/
theorem test_top_modifier : modsAfterPress [(0x1B8#10, 7)] 0x1B8#10 0x00#8 = 0x80#8 := by decide
/-- P26: an index of MOD_W is refused; index 7 is not. -/
theorem test_boot_refuses_index_8 :
    refusedWith (boot ⟨8, [], [(0x1B8#10, 8)], 0#8, 0#8⟩) .modIndexTooLarge = true := by decide
theorem test_boot_accepts_index_7 : nextIs (boot ⟨8, [], [(0x1B8#10, 7)], 0#8, 0#8⟩) (fun _ => true) = true := by decide
theorem test_boot_refuses_width_0 : refusedWith (boot ⟨0, [], [], 0#8, 0#8⟩) .countWidthZero = true := by decide
/-- CFG_EX passes WF_DISJOINT and WF_UNIQUE (95_test_vectors.md section 2). -/
theorem test_cfgEx_well_formed : wfDisjoint cfgEx = true ∧ wfUnique cfgEx = true := by decide

/-! ## The transport and reset -/

/-- T3 and T2: the reports. -/
theorem test_setMods :
    nextIs (exec (.setMods 0x01#8) sRst) (fun t => t.ms == 0x01#8 && t.reports == [(0x01#8, noKey)]) = true := by decide
theorem test_setKey :
    nextIs (exec (.setKey 0x04#8) sRst) (fun t => t.ks == 0x04#8 && t.reports == [(0x00#8, 0x04#8)]) = true := by decide
theorem test_setKeyNone :
    nextIs (exec .setKeyNone { sRst with ks := 0x04#8 }) (fun t => t.ks == noKey && t.reports == [(0x00#8, noKey)]) =
      true := by decide
/-- RS2: the five bits are lost. -/
theorem test_reset_drops_bits :
    nextIs (step ((partFrame 0x00B#10 5).place (.rst true))) (fun t => t.sr == 0#10 && t.bc == 0 && !t.led && t.rst) =
      true := by decide
/-- RS3: the host's slots stay as they were. -/
theorem test_reset_keeps_slots :
    nextIs (exec .reset { inPhase .keyup 0x00#8 0x04#8 with ks := 0x04#8, trace := [0x000#9, 0x104#9] })
      (fun t => t.ks == 0x04#8 && t.phase == .idle && t.trace == [0x000#9, 0x104#9]) = true := by decide
/-- R36: `FRAME 0x178` is the edges 0 1 0 1 1 1 1 0 0 0. -/
theorem test_frame_edges :
    frameEdges 0x178#10 = [0#1, 1#1, 0#1, 1#1, 1#1, 1#1, 1#1, 0#1, 0#1, 0#1].map Event.kbdFall := by decide
/-- The line `RESET` of R60 leaves S_RST. -/
theorem test_line_reset : nextIs ((partFrame 0x00B#10 5).runLine .reset) (fun t => t == sRst) = true := by decide
/-- HO2: the excluded pattern pairs the new frame with the old count. -/
theorem test_two_reads :
    twoReads { sRst with hcFrame := 0x178#10, hcCount := 1 } { sRst with hcFrame := 0x10C#10, hcCount := 2 } =
      (0x10C#10, 1) := by decide

/-! ## Witnesses: a state and operands that meet each statement's hypotheses, at the boundaries of its clauses -/

/-- A state in reset, its registers at their reset values. -/
def held : State := { sRst with rst := true }

theorem sRst_inv : sRst.Inv := by
  constructor <;> first | decide | (intro h; cases h)

theorem held_inv : held.Inv := by
  constructor <;> first | decide | exact fun _ => rfl

theorem witness_EdgeBelowNineShifts :
    (sRst.rst = false ∧ sRst.bc.val = 0) ∧
    ((partFrame 0x0FF#10 8).rst = false ∧ (partFrame 0x0FF#10 8).bc.val < 9) := by decide
theorem witness_TenthEdgePublishes : (partFrame 0x0BC#10 9).rst = false ∧ (partFrame 0x0BC#10 9).bc.val = 9 := by decide
theorem witness_EdgeInResetIsLost :
    held.rst = true ∧ (held.place (.kbdFall 1#1)).stimulus = [.kbdFall 1#1] ∧ held.Inv := ⟨rfl, rfl, held_inv⟩
theorem witness_RisingEdgeChangesNothing : (sRst.place .kbdRise).stimulus = [.kbdRise] := rfl
theorem witness_TenEdgesPublishOneFrame :
    let s := { sRst with stimulus := frameEdges 0x178#10 ++ [Event.clk true] }
    s.rst = false ∧ s.bc.val = 0 ∧ s.stimulus = frameEdges 0x178#10 ++ [Event.clk true] := by decide
theorem witness_PartialFrameHoldsLedHigh :
    ∀ n ∈ [1, 9], let bits := List.replicate n 1#1
    let s := { sRst with stimulus := bits.map Event.kbdFall }
    s.rst = false ∧ s.bc.val = 0 ∧ 1 ≤ bits.length ∧ bits.length ≤ 9 ∧ s.stimulus = bits.map Event.kbdFall ++ [] := by
  decide
theorem witness_EdgeFrame :
    nextIs (exec (.edge 1#1) (partFrame 0x005#10 8)) (fun _ => true) = true ∧ (partFrame 0x005#10 8).bc.val < 9 := by decide
/-- The hypothesis `step s = .next t` of the statements about every step: an unchanged cell, a publish, a reset. -/
theorem witness_CellChangesOnlyByPublish :
    (∃ t, step (sRst.place .kbdRise) = .next t) ∧ (∃ t, step ((partFrame 0x0BC#10 9).place (.kbdFall 0#1)) = .next t) ∧
    (∃ t, step ((published 0x178#10 0#8).place (.rst true)) = .next t) := ⟨⟨_, rfl⟩, ⟨_, rfl⟩, ⟨_, rfl⟩⟩
theorem witness_PublishesAliasModuloCountWidth :
    let s := { sRst with cfg := { cfgEx with topCountBit := 0 } }
    s.hcCount < 2 ^ s.cfg.countW ∧ s.hcCount = s.lastSeen ∧ 2 ^ s.cfg.countW ∣ [0x1B8#10, 0x1B9#10].length ∧
    ¬ 2 ^ s.cfg.countW ∣ [0x1B8#10].length ∧ s.rst = false ∧ s.phase = .idle := by decide
theorem witness_LookupsTakeFirstMatch :
    (∀ e ∈ [(0x154#10, (1 : ModIndex))], e.1 ≠ 0x1B8#10) ∧ (∀ e ∈ [(0x10C#10, 0x05#8)], e.1 ≠ 0x178#10) := by simp
theorem witness_OddKeysNeverMatch : (0x179#10 : ScanCode).getLsbD 0 = true := by decide
theorem witness_DisjointTablesSeparateKeys :
    wfDisjoint cfgEx = true ∧ modLookup cfgEx.modTable 0x154#10 = some 1 := by decide
theorem witness_BootRefusesBadConfigurations :
    let good : RawConfig := ⟨1, [], [(0x1B8#10, 7)], 0#8, 0#8⟩
    let bad : RawConfig := ⟨1, [], [(0x1B8#10, 8)], 0#8, 0#8⟩
    (good.countW ≠ 0 ∧ ∀ e ∈ good.modTable, e.2 < 8) ∧ (bad.countW ≠ 0 ∧ ∃ e ∈ bad.modTable, 8 ≤ e.2) := by decide
theorem witness_PollKeepsWaiting : sRst.rst = false ∧ sRst.phase = .idle ∧ sRst.hcCount = sRst.lastSeen := by decide
theorem witness_TakeProcessesSnapshot :
    ∀ f ∈ [0x178#10, 0x3FF#10], let s := published f 0x00#8
    s.rst = false ∧ s.phase = .idle ∧ s.hcFrame = f ∧ s.hcCount ≠ s.lastSeen ∧
    (f &&& 1#10 = 0#10 ∨ f &&& 1#10 = 1#10) := by decide
theorem witness_TakeChangesOneModifierBit :
    let s := published 0x155#10 0x03#8
    s.rst = false ∧ s.phase = .idle ∧ s.hcFrame = 0x155#10 ∧ s.hcCount ≠ s.lastSeen ∧
    s.cfg.modTable = [(0x1B8#10, 0)] ++ (0x155#10 &&& 0x3FE#10, 1) :: [] ∧
    (∀ e ∈ [(0x1B8#10, (0 : ModIndex))], e.1 ≠ 0x155#10 &&& 0x3FE#10) ∧
    (∀ e ∈ s.cfg.modTable, e.1 ≠ 0x178#10 &&& 0x3FE#10) :=
  ⟨rfl, rfl, rfl, by decide, rfl, by simp, by simp [published, sRst, State.resetWith, cfgEx]⟩
theorem witness_EmitModsReports :
    (inPhase .mods 1#8 4#8).rst = false ∧ (inPhase .mods 1#8 4#8).phase = .mods := by decide
theorem witness_EmitKeydnReports :
    (inPhase .keydn 1#8 4#8).rst = false ∧ (inPhase .keydn 1#8 4#8).phase = .keydn := by decide
theorem witness_EmitKeyupReports :
    (inPhase .keyup 1#8 4#8).rst = false ∧ (inPhase .keyup 1#8 4#8).phase = .keyup := by decide
theorem witness_HoldChangesNothing :
    ∀ p ∈ [Phase.mods, .keydn, .keyup], (inPhase p 1#8 4#8).rst = false ∧ p ≠ .idle ∧ (inPhase p 1#8 4#8).phase = p := by
  decide
theorem witness_OfferStableUntilAccepted :
    let es : List Event := [.clk false, .kbdRise, .kbdFall 1#1]
    let s := { inPhase .keydn 0#8 5#8 with stimulus := es ++ [Event.clk true] }
    s.rst = false ∧ s.txValid = true ∧
    (∀ e ∈ es, e = .clk false ∨ e = .kbdRise ∨ ∃ d, e = .kbdFall d) ∧ s.stimulus = es ++ [.clk true] := by
  refine ⟨rfl, rfl, ?_, rfl⟩
  intro e he
  simp only [List.mem_cons, List.not_mem_nil, or_false] at he
  rcases he with rfl | rfl | rfl
  · exact .inl rfl
  · exact .inr (.inl rfl)
  · exact .inr (.inr ⟨_, rfl⟩)
theorem witness_NoProcessorStepInReset : held.rst = true := rfl
theorem witness_UnselectedOperationsRefused : (inPhase .keydn 1#8 4#8).rst = false := rfl
theorem witness_ProcessorFrame :
    Instr.hold .mods ∈ [Instr.poll, .takePress 0#9, .takeRelease 0#9, .emitMods, .emitKeydn, .emitKeyup, .hold .mods] ∧
    ∃ t, exec (.hold .mods) (inPhase .mods 1#8 4#8) = .next t := ⟨by decide, _, rfl⟩
theorem witness_ProcessorDomainFrame :
    (∃ t, exec .poll sRst = .next t) ∧ (∃ t, exec (.takePress 0x0BC#9) (published 0x178#10 0#8) = .next t) ∧
    (∃ t, exec .emitKeydn (inPhase .keydn 1#8 4#8) = .next t) := ⟨⟨_, rfl⟩, ⟨_, rfl⟩, ⟨_, rfl⟩⟩
theorem witness_TransportFrame :
    Instr.setKeyNone ∈ [Instr.setMods 1#8, .setKey 4#8, .setKeyNone] ∧ ∃ t, exec .setKeyNone sRst = .next t :=
  ⟨by decide, _, rfl⟩
theorem witness_CommandPortOutputs :
    sRst.phase = .idle ∧ (inPhase .mods 1#8 4#8).phase = .mods ∧ (inPhase .keydn 1#8 4#8).phase = .keydn ∧
    (inPhase .keyup 1#8 4#8).phase = .keyup := by decide
theorem witness_ResetWritesEveryRegister :
    (sRst.place (.rst true)).stimulus = [.rst true] ∧ (held.place (.kbdFall 0#1)).rst = true ∧
    (held.place (.kbdFall 0#1)).stimulus = [.kbdFall 0#1] ∧ (held.place (.clk false)).stimulus = [.clk false] :=
  ⟨rfl, rfl, rfl, rfl⟩
theorem witness_ResetReleaseStartsIdle :
    (held.place (.rst false)).Inv ∧ (held.place (.rst false)).rst = true ∧
    (held.place (.rst false)).stimulus = [.rst false] := by
  refine ⟨?_, rfl, rfl⟩
  constructor <;> first | decide | exact fun _ => rfl
theorem witness_ResetFrame : ∃ t, exec .reset sRst = .next t := ⟨_, rfl⟩
theorem witness_DecodeEncodeRoundTrip : (Instr.takePress 0x1FF#9).wellFormed = true := by decide
theorem witness_EncodeDecodeRoundTrip :
    decode (.frame 0x3FF#10) = .ok (.takeRelease 0x1FF#9) ∧ decode (.phase 0b00#2 false) = .ok .poll := by decide
theorem witness_DecoderAcceptsFormatWidths : 2 ^ Format.width .cmd ≤ 512 ∧ ¬ 2 ^ Format.width .cmd ≤ 511 := by decide
theorem witness_StepRunsDecodedOperation :
    let s := sRst.place (.kbdFall 1#1)
    let r := sRst.place .kbdRise
    s.ready.presents s.nextEvent = [.edge 1#1] ∧ decode (.edge 1#1) = .ok (.edge 1#1) ∧
    r.ready.presents r.nextEvent = [] := by decide
theorem witness_AcceptedWordReachesTransport :
    ∀ p ∈ [Phase.mods, .keydn, .keyup], let s := (inPhase p 1#8 4#8).place (.clk true)
    s.nextEvent = .clk true ∧ s.rst = false ∧ s.phase ≠ .idle := by decide
theorem witness_TraceGrowsByAcceptedOffers :
    let s := (inPhase .mods 1#8 4#8).place (.clk true)
    let u := (inPhase .mods 1#8 4#8).place (.clk false)
    (∃ t, step s = .next t) ∧ (s.nextEvent = .clk true ∧ s.rst = false ∧ s.txValid = true) ∧
    (∃ t, step u = .next t) ∧ ¬ (u.nextEvent = .clk true ∧ u.rst = false ∧ u.txValid = true) :=
  ⟨⟨_, rfl⟩, by decide, ⟨_, rfl⟩, by decide⟩
theorem witness_ReportsFollowAcceptedOffers :
    let s := (inPhase .keydn 1#8 4#8).place (.clk true)
    let u := sRst.place (.clk true)
    (∃ t, step s = .next t) ∧ (s.nextEvent = .clk true ∧ s.rst = false ∧ s.txValid = true) ∧
    (∃ t, step u = .next t) ∧ ¬ (u.nextEvent = .clk true ∧ u.rst = false ∧ u.txValid = true) :=
  ⟨⟨_, rfl⟩, by decide, ⟨_, rfl⟩, by decide⟩
theorem witness_StepKeepsInvariant : sRst.Inv ∧ ∃ t, step (sRst.place (.kbdFall 1#1)) = .next t := ⟨sRst_inv, _, rfl⟩
theorem witness_StepKeepsTraceGroups :
    (let s := (published 0x178#10 0x00#8).place (.clk true)
     s.Inv ∧ s.traceFits [] 0 ∧ s.nextEvent ≠ .rst true ∧ s.takes ∧ ∃ t, step s = .next t) ∧
    (let s := ({ inPhase .keyup 0x00#8 0x04#8 with trace := [0x000#9, 0x104#9] }).place (.rst true)
     s.Inv ∧ s.traceFits [] 1 ∧ s.nextEvent = .rst true ∧ ∃ t, step s = .next t) ∧
    (let s := sRst.place .kbdRise
     s.Inv ∧ s.traceFits [] 0 ∧ s.nextEvent ≠ .rst true ∧ ¬ s.takes ∧ ∃ t, step s = .next t) := by
  refine ⟨⟨?_, ⟨[], rfl, .none⟩, by decide, ⟨⟨true, rfl⟩, rfl, rfl, rfl⟩, _, rfl⟩,
    ⟨?_, ⟨_, rfl, 0, [], 0x00#8, rfl, .none, rfl⟩, rfl, _, rfl⟩,
    ⟨?_, ⟨[], rfl, .none⟩, by decide, fun h => absurd h.1.choose_spec (by simp [State.place, State.nextEvent]), _, rfl⟩⟩
  all_goals constructor <;> first | decide | (intro h; cases h)
theorem witness_StepKeepsKeyWordsFromTable :
    let s := (inPhase .keydn 0#8 0x04#8).place (.clk true)
    s.Inv ∧ (∃ t, step s = .next t) ∧
    ∀ w ∈ s.trace, w.getLsbD 8 = true → w.extractLsb' 0 8 = 0#8 ∨ ∃ e ∈ s.cfg.regTable, e.2 = w.extractLsb' 0 8 := by
  refine ⟨?_, ⟨_, rfl⟩, by decide⟩
  constructor <;> first | decide | (intro h; cases h)
theorem witness_ConfigurationNeverChanges : ∃ t, step (sRst.place (.clk true)) = .next t := ⟨_, rfl⟩
theorem witness_ModsWrittenOnlyByTakeOrReset :
    nextIs (step ((published 0x1B8#10 0#8).place (.clk false))) (fun t => t.mods != 0#8) = true ∧
    nextIs (step ((inPhase .idle 1#8 0#8).place (.rst true))) (fun t => t.mods != 1#8) = true := by decide
theorem witness_SamplerIndependentOfProcessor :
    let s := sRst.place (.kbdFall 1#1)
    let u := (inPhase .keydn 1#8 4#8).place (.kbdFall 1#1)
    s.sr = u.sr ∧ s.bc = u.bc ∧ s.led = u.led ∧ s.hcFrame = u.hcFrame ∧ s.hcCount = u.hcCount ∧
    s.cfg.countW = u.cfg.countW ∧ s.rst = u.rst ∧ s.nextEvent = u.nextEvent ∧ (∃ t, step s = .next t) ∧
    ∃ t, step u = .next t := ⟨rfl, rfl, rfl, rfl, rfl, rfl, rfl, rfl, ⟨_, rfl⟩, _, rfl⟩
theorem witness_ProcessorBlindToFrameInProgress :
    let s := (published 0x178#10 0#8).place (.clk true)
    s.nextEvent = .clk true ∧ ∃ t, step s = .next t := ⟨rfl, _, rfl⟩
theorem witness_ShiftingEdgeCommutesWithClock : (published 0x178#10 0#8).bc.val < 9 ∧ (partFrame 0#10 8).bc.val < 9 := by
  decide
theorem witness_PublishAndSnapshotAreOrdered :
    let meets : State → Prop := fun s => s.rst = false ∧ s.phase = .idle ∧ s.bc.val = 9 ∧
      s.hcCount < 2 ^ s.cfg.countW ∧ 0x178#10 = (s.sr <<< 1) ||| (0#1).setWidth 10
    let s := partFrame 0x0BC#10 9
    (meets s ∧ s.hcCount = s.lastSeen) ∧
    (let pending := { s with hcFrame := 0x10C#10, hcCount := 1 }
     meets pending ∧ pending.hcCount ≠ pending.lastSeen) ∧
    (let wraps := { s with hcCount := 0xFF }
     meets wraps ∧ (wraps.hcCount + 1) % 2 ^ wraps.cfg.countW = wraps.lastSeen) := by decide
/-- The bits of a frame in progress, a pending frame, and nine more edges among the events after its take. -/
theorem witness_TakenFrameIsNotTakenAgain :
    let es := [Event.clk true, .clk true] ++ List.replicate 9 (.kbdFall 1#1)
    let s := { published 0x1B8#10 0x00#8 with stimulus := Event.clk true :: (es ++ [Event.clk true]) }
    s.rst = false ∧ s.phase = .idle ∧ s.hcCount ≠ s.lastSeen ∧ s.stimulus = Event.clk true :: (es ++ [Event.clk true]) ∧
    .rst true ∉ es ∧ s.bc.val + fallCount es ≤ 9 := by decide
theorem witness_RefiningHandoffTakesFrameOnce :
    CdcImpl.refinesSnapshot (fun first _ => first.snapshot) ∧
    (((published 0x178#10 0x00#8).publish 0x10C#10).taken 1 0x00#8 noKey).newFrame = true ∧
    (published 0x178#10 0x00#8).hcCount < 2 ^ (published 0x178#10 0x00#8).cfg.countW :=
  ⟨fun _ _ => .inl rfl, by decide, by decide⟩
theorem witness_MappedPressEmitsTap :
    let s := { published 0x178#10 0x01#8 with stimulus := List.replicate 4 (Event.clk true) }
    s.rst = false ∧ s.phase = .idle ∧ s.hcCount ≠ s.lastSeen ∧ s.hcFrame.getLsbD 0 = false ∧
    0x01#8 = modsAfterPress s.cfg.modTable (scanCode s.hcFrame) s.mods ∧
    0x04#8 = regLookup s.cfg.regTable (scanCode s.hcFrame) ∧ 0x04#8 ≠ noKey ∧
    s.stimulus = List.replicate 4 (Event.clk true) ++ [] := by decide
theorem witness_OtherFramesEmitModifierReportOnly_release :
    let s : State := { published 0x1B9#10 0x01#8 with stimulus := List.replicate 2 (Event.clk true) }
    s.rst = false ∧ s.phase = .idle ∧ s.hcCount ≠ s.lastSeen ∧ s.hcFrame.getLsbD 0 = true ∧
    0x00#8 = modsAfterRelease s.cfg.modTable (scanCode s.hcFrame) s.mods ∧
    s.stimulus = List.replicate 2 (Event.clk true) ++ [] := by decide
theorem witness_OtherFramesEmitModifierReportOnly_press :
    let s : State := { published 0x1B8#10 0x00#8 with stimulus := List.replicate 2 (Event.clk true) }
    s.rst = false ∧ s.phase = .idle ∧ s.hcCount ≠ s.lastSeen ∧ s.hcFrame.getLsbD 0 = false ∧
    regLookup s.cfg.regTable (scanCode s.hcFrame) = noKey ∧
    0x01#8 = modsAfterPress s.cfg.modTable (scanCode s.hcFrame) s.mods ∧
    s.stimulus = List.replicate 2 (Event.clk true) ++ [] := by decide
theorem witness_QuiescentUntilPublish :
    (sRst.place (.clk true)).quiescent = true ∧ (sRst.place (.clk true)).nextEvent = .clk true ∧
    ((partFrame 0#10 8).place (.kbdFall 0#1)).quiescent = true ∧
    (∀ d, ((partFrame 0#10 8).place (.kbdFall 0#1)).nextEvent = .kbdFall d → (8 : BitCount).val < 9) := by decide
theorem witness_QuiescentWithinSevenAcceptedClocks :
    let rs := false :: List.replicate 7 true
    let s := { inPhase .mods 0#8 4#8 with hcFrame := 0x178#10, hcCount := 1, stimulus := rs.map Event.clk }
    s.rst = false ∧ 7 ≤ rs.count true ∧ s.stimulus = rs.map Event.clk ++ [] := by decide
theorem witness_PresentedOperationIsRun :
    (Instr.hold .keyup).wellFormed = true ∧ (Instr.setKey 0x05#8).wellFormed = true := by decide

end Sys2Proof.Tests
end

/-! ## The two key tables: first match and absence (20_memory.md section 5) -/

namespace Sys2Proof.Machine

/-- ModLookup passes over entries with other keys (R45). -/
theorem modLookup_append_of_forall_ne {sc : ScanCode} {pre : List (ScanCode × ModIndex)}
    (hpre : ∀ e ∈ pre, e.1 ≠ sc) (post : List (ScanCode × ModIndex)) :
    modLookup (pre ++ post) sc = modLookup post sc := by
  induction pre with
  | nil => rfl
  | cons e rest ih =>
    obtain ⟨hkey, hrest⟩ := List.forall_mem_cons.mp hpre
    rw [List.cons_append, modLookup_cons, if_neg hkey, ih hrest]

/-- RegLookup passes over entries with other keys (R46). -/
theorem regLookup_append_of_forall_ne {sc : ScanCode} {pre : List (ScanCode × Keycode)}
    (hpre : ∀ e ∈ pre, e.1 ≠ sc) (post : List (ScanCode × Keycode)) :
    regLookup (pre ++ post) sc = regLookup post sc := by
  induction pre with
  | nil => rfl
  | cons e rest ih =>
    obtain ⟨hkey, hrest⟩ := List.forall_mem_cons.mp hpre
    rw [List.cons_append, regLookup_cons, if_neg hkey, ih hrest]

theorem modLookup_eq_none_of_forall_ne {sc : ScanCode} {table : List (ScanCode × ModIndex)}
    (h : ∀ e ∈ table, e.1 ≠ sc) : modLookup table sc = none := by
  simpa using modLookup_append_of_forall_ne h []

theorem regLookup_eq_noKey_of_forall_ne {sc : ScanCode} {table : List (ScanCode × Keycode)}
    (h : ∀ e ∈ table, e.1 ≠ sc) : regLookup table sc = noKey := by
  simpa using regLookup_append_of_forall_ne h []

/-- Settles O12: each lookup passes over the entries before the first match, and over a whole table without one. -/
theorem lookupsTakeFirstMatch : Obligations.LookupsTakeFirstMatch := by
  intro sc
  refine ⟨fun pre post i hpre => ?_, fun _ => modLookup_eq_none_of_forall_ne,
    fun pre post k hpre => ?_, fun _ => regLookup_eq_noKey_of_forall_ne⟩
  · rw [modLookup_append_of_forall_ne hpre, modLookup_cons, if_pos rfl]
  · rw [regLookup_append_of_forall_ne hpre, regLookup_cons, if_pos rfl]

end Sys2Proof.Machine

/-! ## The Sampler: EDGE by reset and bit count, and the edges that take no step (40_sampler.md) -/

namespace Sys2Proof.Machine

/-- R72: in reset EDGE loses its bit. -/
theorem exec_edge_in_reset {s : State} (d : BitVec 1) (hr : s.rst = true) : exec (.edge d) s = .next s := by
  simp [exec, execEdge, hr]

/-- R65: outside reset EDGE is the Sampler's step. -/
theorem exec_edge_running {s : State} (d : BitVec 1) (hr : s.rst = false) :
    exec (.edge d) s = .next (s.sample d) := by
  simp [exec, execEdge, hr]

theorem exec_edge_shift {s : State} (d : BitVec 1) (hr : s.rst = false) (hbc : s.bc.val < 9) :
    exec (.edge d) s = .next (s.shiftIn d) := by
  rw [exec_edge_running d hr, sample_shift hbc]

theorem exec_edge_complete {s : State} (d : BitVec 1) (hr : s.rst = false) (hbc : s.bc.val = 9) :
    exec (.edge d) s = .next (s.completeFrame d) := by
  rw [exec_edge_running d hr, sample_complete hbc]

/-- Registers at reset give the reset values of the sampler domain and of the handoff cell (R15, R72). -/
theorem State.registersAtReset.sampler_domain {s : State} (h : s.registersAtReset) :
    s.sr = 0 ∧ s.bc = 0 ∧ s.led = false ∧ s.hcFrame = 0 ∧ s.hcCount = 0 := by
  have hreset : s.resetRegisters = s := h
  rw [← hreset]
  exact ⟨rfl, rfl, rfl, rfl, rfl⟩

/-- Settles O1: below nine bits EDGE is the shifting step, and the bit count has room for one more. -/
theorem edgeBelowNineShifts : Obligations.EdgeBelowNineShifts := by
  intro s d hr hbc
  have hcount : (s.bc + 1).val = s.bc.val + 1 := shiftIn_bc_val (d := d) hbc
  exact ⟨hcount, exec_edge_shift d hr hbc⟩

/-- Settles O2: at nine bits EDGE is the completing step. -/
theorem tenthEdgePublishes : Obligations.TenthEdgePublishes :=
  fun _ d hr hbc => exec_edge_complete d hr hbc

/-- Settles O3: in reset neither EDGE nor the step on a falling edge samples, and the invariant holds the registers at
their reset values. -/
theorem edgeInResetIsLost : Obligations.EdgeInResetIsLost := by
  intro s d rest hr
  refine ⟨exec_edge_in_reset d hr, fun hs => ?_, fun hinv => (hinv.reset_held hr).sampler_domain⟩
  have hfall : s.nextEvent = .kbdFall d := nextEvent_cons s _ _ hs
  rw [step_held_in_reset hr (.inl ⟨d, hfall⟩), afterDraw_cons s _ _ hs]

/-- Settles O4: the step on a rising edge only draws the event. -/
theorem risingEdgeChangesNothing : Obligations.RisingEdgeChangesNothing := by
  intro s rest hs
  rw [step_kbdRise (nextEvent_cons s _ _ hs), afterDraw_cons s _ _ hs]

end Sys2Proof.Machine

/-! ## The Processor's operations where the state selects them (41_processor.md) -/

namespace Sys2Proof.Machine

/-- `tx_valid` is 1 exactly outside IDLE (R87). -/
theorem txValid_iff {s : State} : s.txValid = true ↔ s.phase ≠ .idle := by simp [State.txValid]

theorem txValid_idle {s : State} (hp : s.phase = .idle) : s.txValid = false := by simp [State.txValid, hp]

theorem txValid_reporting {s : State} {p : Phase} (hq : s.phase = p) (hp : p ≠ .idle) : s.txValid = true :=
  txValid_iff.mpr (hq ▸ hp)

/-- The fields of the word offered in each reporting phase (R87). -/
theorem txCmd_mods {s : State} (hp : s.phase = .mods) : s.txCmd = 0#1 := by simp [State.txCmd, hp]

theorem txCmd_not_mods {s : State} {p : Phase} (hq : s.phase = p) (hp : p ≠ .mods) : s.txCmd = 1#1 := by
  simp [State.txCmd, hq, hp]

theorem txArg_mods {s : State} (hp : s.phase = .mods) : s.txArg = s.mods := by simp [State.txArg, hp]

theorem txArg_keydn {s : State} (hp : s.phase = .keydn) : s.txArg = s.pendKey := by simp [State.txArg, hp]

theorem txArg_keyup {s : State} (hp : s.phase = .keyup) : s.txArg = noKey := by simp [State.txArg, hp]

/-- R52, R77: the release flag of a frame, read by the mask of its bit 0. -/
theorem relFlag_of_and_one {f : Frame} {rel : BitVec 1} (h : f &&& 1#10 = rel.setWidth 10) :
    relFlag f = rel.getLsbD 0 := by
  simpa [relFlag] using congrArg (·.getLsbD 0) h

section OutsideReset

variable {s : State} (hr : s.rst = false)
include hr

theorem exec_poll_waiting (hp : s.phase = .idle) (hn : s.hcCount = s.lastSeen) : exec .poll s = .next s :=
  processorStep_selected hr (by simp [State.newFrame, State.snapshot, hp, hn])

/-- R76: TAKE.PRESS of the pending frame, its release flag clear. -/
theorem exec_takePress_pending (hp : s.phase = .idle) (hn : s.hcCount ≠ s.lastSeen)
    (hf : relFlag s.hcFrame = false) :
    exec (.takePress (upperBits s.hcFrame)) s = .next (s.taken s.hcCount
      (modsAfterPress s.cfg.modTable (scanCode s.hcFrame) s.mods) (regLookup s.cfg.regTable (scanCode s.hcFrame))) := by
  simp only [exec, execTakePress, frameOf_upperBits_press _ hf]
  exact processorStep_selected hr (takeSelected_iff.mpr ⟨hp, hn, rfl⟩)

/-- R76: TAKE.RELEASE of the pending frame, its release flag set. -/
theorem exec_takeRelease_pending (hp : s.phase = .idle) (hn : s.hcCount ≠ s.lastSeen)
    (hf : relFlag s.hcFrame = true) :
    exec (.takeRelease (upperBits s.hcFrame)) s = .next (s.taken s.hcCount
      (modsAfterRelease s.cfg.modTable (scanCode s.hcFrame) s.mods) noKey) := by
  simp only [exec, execTakeRelease, frameOf_upperBits_release _ hf]
  exact processorStep_selected hr (takeSelected_iff.mpr ⟨hp, hn, rfl⟩)

/-- R76: the take that the pending frame decodes to, press or release. -/
theorem exec_take_pending (hp : s.phase = .idle) (hn : s.hcCount ≠ s.lastSeen) :
    exec (decodeFrame s.hcFrame) s = .next (s.taken s.hcCount (modsAfterTake s.cfg s.hcFrame s.mods)
      (keyAfterTake s.cfg s.hcFrame)) := by
  cases hf : relFlag s.hcFrame with
  | false => simp [decodeFrame, modsAfterTake, keyAfterTake, hf, exec_takePress_pending hr hp hn hf]
  | true => simp [decodeFrame, modsAfterTake, keyAfterTake, hf, exec_takeRelease_pending hr hp hn hf]

theorem exec_emitMods_due (hp : s.phase = .mods) :
    exec .emitMods s = .next (s.emit (setModsWord s.mods) (if s.pendKey != noKey then .keydn else .idle)) :=
  processorStep_selected hr (by simp [hp])

theorem exec_emitKeydn_due (hp : s.phase = .keydn) :
    exec .emitKeydn s = .next (s.emit (setKeyWord s.pendKey) .keyup) :=
  processorStep_selected hr (by simp [hp])

theorem exec_emitKeyup_due (hp : s.phase = .keyup) :
    exec .emitKeyup s = .next (s.emit (setKeyWord noKey) .idle) :=
  processorStep_selected hr (by simp [hp])

theorem exec_hold_phase {p : Phase} (hp : p ≠ .idle) (hq : s.phase = p) : exec (.hold p) s = .next s :=
  processorStep_selected hr (by simp [hp, hq])

end OutsideReset

/-- R79: a take that finds no modifier entry leaves the bitset. -/
theorem modsAfterTake_none {c : Config} {f : Frame} {mods : ModSet}
    (h : modLookup c.modTable (scanCode f) = none) : modsAfterTake c f mods = mods := by
  simp [modsAfterTake, modsAfterPress_none h, modsAfterRelease_none h]

/-- R79: bit `j` after a take that finds index `i`: at `i` the release flag inverted, elsewhere as before. -/
theorem modsAfterTake_getLsbD {c : Config} {f : Frame} {i : ModIndex}
    (h : modLookup c.modTable (scanCode f) = some i) (mods : ModSet) (j : ModIndex) :
    (modsAfterTake c f mods).getLsbD j.val = if i = j then !relFlag f else mods.getLsbD j.val := by
  cases hf : relFlag f with
  | false =>
    rw [modsAfterTake, hf, if_neg Bool.false_ne_true, modsAfterPress_some h, BitVec.getLsbD_or, modBit_getLsbD]
    by_cases hij : i = j <;> simp [hij]
  | true =>
    rw [modsAfterTake, hf, if_pos rfl, modsAfterRelease_some h, BitVec.getLsbD_and, BitVec.getLsbD_not,
      modBit_getLsbD]
    by_cases hij : i = j <;> simp [hij]

/-- Settles O18: the bits after the take that the pending frame decodes to, with the lookup at its first match or
without one. -/
theorem takeChangesOneModifierBit : Obligations.TakeChangesOneModifierBit := by
  rintro s _ hr hp rfl hn
  refine ⟨_, exec_take_pending hr hp hn, fun hnone => modsAfterTake_none (modLookup_eq_none_of_forall_ne hnone),
    fun pre post i htable hpre => ?_⟩
  have hfound : modLookup s.cfg.modTable (scanCode s.hcFrame) = some i := by
    rw [htable, modLookup_append_of_forall_ne (sc := scanCode s.hcFrame) hpre]
    exact if_pos rfl
  have hbit (j : ModIndex) := modsAfterTake_getLsbD hfound s.mods j
  exact ⟨(hbit i).trans (if_pos rfl), fun j hj => (hbit j).trans (if_neg hj.symm)⟩

/-- Settles O16: POLL is selected and its effect is the same state. -/
theorem pollKeepsWaiting : Obligations.PollKeepsWaiting :=
  fun _ hr hp hn => ⟨exec_poll_waiting hr hp hn, txValid_idle hp⟩

/-- Settles O17: bit 0 of the pending frame tells which take is selected. -/
theorem takeProcessesSnapshot : Obligations.TakeProcessesSnapshot := by
  rintro s _ hr hp rfl hn
  exact ⟨txValid_idle hp,
    fun hpress => exec_takePress_pending hr hp hn (relFlag_of_and_one (rel := 0#1) hpress),
    fun hrelease => exec_takeRelease_pending hr hp hn (relFlag_of_and_one (rel := 1#1) hrelease)⟩

/-- Settles O19: the modifier report is selected, and its word is `mods` with bit 8 clear. -/
theorem emitModsReports : Obligations.EmitModsReports := by
  intro s hr hp
  refine ⟨txValid_reporting hp nofun, txCmd_mods hp, txArg_mods hp, ?_⟩
  simp only [exec_emitMods_due hr hp, setModsWord_eq, bne_iff_ne]
  rfl

/-- Settles O20: the key-press report is selected, and its word is `pend_key` with bit 8 set. -/
theorem emitKeydnReports : Obligations.EmitKeydnReports := by
  intro s hr hp
  refine ⟨txValid_reporting hp nofun, txCmd_not_mods hp nofun, txArg_keydn hp, ?_⟩
  rw [exec_emitKeydn_due hr hp, setKeyWord_eq]
  rfl

/-- Settles O21: the key-release report is selected, and its word is bit 8 alone. -/
theorem emitKeyupReports : Obligations.EmitKeyupReports :=
  fun _ hr hp => ⟨txValid_reporting hp nofun, txCmd_not_mods hp nofun, txArg_keyup hp, exec_emitKeyup_due hr hp⟩

/-- Settles O22: the hold of the phase is selected and its effect is the same state. -/
theorem holdChangesNothing : Obligations.HoldChangesNothing :=
  fun _ _ hr hp hq => ⟨exec_hold_phase hr hp hq, txValid_reporting hq hp⟩

end Sys2Proof.Machine

/-! ## The stable offer: edges and holds leave the command port (41_processor.md section 2, R86) -/

namespace Sys2Proof.Machine

/-- `t` stands where `s` does on the Processor's side and at the command port: the registers the offer is made of,
`last_seen`, what has been emitted and transmitted, and the level of `rst`. -/
structure State.SameOffer (s t : State) : Prop where
  phase : t.phase = s.phase
  mods : t.mods = s.mods
  pendKey : t.pendKey = s.pendKey
  lastSeen : t.lastSeen = s.lastSeen
  trace : t.trace = s.trace
  reports : t.reports = s.reports
  rst : t.rst = s.rst

theorem State.SameOffer.trans {s t u : State} (h : s.SameOffer t) (h' : t.SameOffer u) : s.SameOffer u where
  phase := h'.phase.trans h.phase
  mods := h'.mods.trans h.mods
  pendKey := h'.pendKey.trans h.pendKey
  lastSeen := h'.lastSeen.trans h.lastSeen
  trace := h'.trace.trans h.trace
  reports := h'.reports.trans h.reports
  rst := h'.rst.trans h.rst

theorem State.SameOffer.txValid {s t : State} (h : s.SameOffer t) : t.txValid = s.txValid := by
  simp [State.txValid, h.phase]

theorem State.SameOffer.txWord {s t : State} (h : s.SameOffer t) : t.txWord = s.txWord := by
  simp [State.txWord, State.txCmd, State.txArg, h.phase, h.mods, h.pendKey]

theorem withStimulus_sameOffer (s : State) (es : List Event) : s.SameOffer { s with stimulus := es } := by
  constructor <;> rfl

/-- R73: the Sampler's step, shifting or completing, touches nothing of the offer. -/
theorem sample_sameOffer (s : State) (d : BitVec 1) : s.SameOffer (s.sample d) := by
  by_cases hbc : s.bc.val < 9
  · rw [sample_shift hbc]; constructor <;> rfl
  · rw [sample_complete (by omega)]; constructor <;> rfl

theorem sample_stimulus (s : State) (d : BitVec 1) : (s.sample d).stimulus = s.stimulus := by
  by_cases hbc : s.bc.val < 9
  · rw [sample_shift hbc, shiftIn_stimulus]
  · rw [sample_complete (by omega), completeFrame_stimulus]

/-- R86: one step on an edge or on a `clk` the transport does not accept. -/
theorem step_keeps_offer {s : State} {e : Event} {es : List Event} (hr : s.rst = false) (hv : s.txValid = true)
    (he : e = .clk false ∨ e = .kbdRise ∨ ∃ d, e = .kbdFall d) (hs : s.stimulus = e :: es) :
    ∃ t, step s = .next t ∧ t.stimulus = es ∧ s.SameOffer t := by
  have hdrawn := withStimulus_sameOffer s es
  obtain rfl | rfl | ⟨d, rfl⟩ := he
  · have hstep := step_hold (nextEvent_cons s _ _ hs) hr (txValid_iff.mp hv)
    exact ⟨_, hstep.trans (by rw [afterDraw_cons s _ _ hs]), rfl, hdrawn⟩
  · have hstep := step_kbdRise (nextEvent_cons s _ _ hs)
    exact ⟨_, hstep.trans (by rw [afterDraw_cons s _ _ hs]), rfl, hdrawn⟩
  · exact ⟨_, step_edge_of_stimulus hr hs, sample_stimulus _ d, hdrawn.trans (sample_sameOffer _ d)⟩

/-- R86: any run of edges and holds, by induction on its events. -/
theorem run_keeps_offer {es rest : List Event} {s : State} (hr : s.rst = false) (hv : s.txValid = true)
    (hes : ∀ e ∈ es, e = .clk false ∨ e = .kbdRise ∨ ∃ d, e = .kbdFall d) (hs : s.stimulus = es ++ rest) :
    ∃ t, Host.Core.run Sys2Proof.core es.length s = .next t ∧ t.stimulus = rest ∧ s.SameOffer t := by
  induction es generalizing s with
  | nil => exact ⟨s, rfl, hs, withStimulus_sameOffer s s.stimulus⟩
  | cons e es ih =>
    obtain ⟨he, hes⟩ := List.forall_mem_cons.mp hes
    obtain ⟨t, hstep, hstim, hst⟩ := step_keeps_offer hr hv he hs
    obtain ⟨u, hrun, hrest, htu⟩ := ih (hst.rst.trans hr) (hst.txValid.trans hv) hes hstim
    exact ⟨u, (run_succ hstep).trans hrun, hrest, hst.trans htu⟩

/-- Settles O23: the offered word is made of registers that the run keeps. -/
theorem offerStableUntilAccepted : Obligations.OfferStableUntilAccepted := by
  intro es s rest hr hv hes hs
  obtain ⟨t, hrun, hrest, h⟩ := run_keeps_offer hr hv hes hs
  exact ⟨t, hrun, hrest, h.txValid.trans hv, h.txWord, h.phase, h.mods, h.pendKey, h.lastSeen, h.trace, h.reports⟩

end Sys2Proof.Machine

/-! ## The transport: accepted offers and the host-visible slots (42_transport.md) -/

namespace Sys2Proof.Machine

/-- What the transport has of the block: the accepted words, the reports transmitted, and the two slots (R97, R101). -/
def State.received (s : State) : List CmdWord × List (ModSet × Keycode) × ModSet × Keycode :=
  (s.trace, s.reports, s.ms, s.ks)

@[simp] theorem afterDraw_received (s : State) : s.afterDraw.received = s.received := by simp [State.received]

theorem withRst_received (s : State) (level : Bool) : { s with rst := level }.received = s.received := rfl

/-- R124: reset emits nothing and leaves the transport's slots. -/
@[simp] theorem resetRegisters_received (s : State) : s.resetRegisters.received = s.received := rfl

@[simp] theorem taken_received (s : State) (c : Nat) (m : ModSet) (k : Keycode) :
    (s.taken c m k).received = s.received := rfl

@[simp] theorem sample_received (s : State) (d : BitVec 1) : (s.sample d).received = s.received := by
  by_cases hbc : s.bc.val < 9
  · rw [sample_shift hbc]; rfl
  · rw [sample_complete (by omega)]; rfl

/-- R97: whatever report is offered, the accepting step appends the word offered, leaves the offering phase, and has the
transport transmit. -/
theorem step_accepts_offer {s : State} (he : s.nextEvent = .clk true) (hr : s.rst = false) (hv : s.txValid = true) :
    ∃ p m k, p ≠ s.phase ∧ step s = .next ((s.afterDraw.emit s.txWord p).transmit m k) := by
  cases hp : s.phase with
  | idle => exact absurd hp (txValid_iff.mp hv)
  | mods =>
    refine ⟨_, _, _, ?_, txWord_mods hp ▸ step_emitMods he hr hp⟩
    split <;> nofun
  | keydn =>
    refine ⟨_, _, _, ?_, txWord_keydn hp ▸ step_emitKeydn he hr hp⟩
    nofun
  | keyup =>
    refine ⟨_, _, _, ?_, txWord_keyup hp ▸ step_emitKeyup he hr hp⟩
    nofun

/-- A step that accepts no offer leaves what the transport has: of the cases of a step, the three reports alone reach it,
and each is an acceptance. -/
theorem step_received_of_not_accepted {s t : State} (h : step s = .next t)
    (hno : ¬ (s.nextEvent = .clk true ∧ s.rst = false ∧ s.txValid = true)) : t.received = s.received := by
  cases step_cases h with
  | rise | heldEdge | heldClock | poll | hold => exact afterDraw_received s
  | resetHigh => rw [resetRegisters_received, withRst_received, afterDraw_received]
  | resetLow => rw [withRst_received, afterDraw_received]
  | edge => rw [sample_received, afterDraw_received]
  | takePress | takeRelease => rw [taken_received, afterDraw_received]
  | emitMods he hr hp => exact absurd ⟨he, hr, txValid_reporting hp nofun⟩ hno
  | emitKeydn he hr hp => exact absurd ⟨he, hr, txValid_reporting hp nofun⟩ hno
  | emitKeyup he hr hp => exact absurd ⟨he, hr, txValid_reporting hp nofun⟩ hno

/-- Settles O41: an accepting step is the one that emits the word offered, and any other leaves the trace. -/
theorem traceGrowsByAcceptedOffers : Obligations.TraceGrowsByAcceptedOffers := by
  intro s t h
  refine ⟨fun ⟨he, hr, hv⟩ => ?_, fun hno => congrArg Prod.fst (step_received_of_not_accepted h hno)⟩
  obtain ⟨p, m, k, hp, hstep⟩ := step_accepts_offer he hr hv
  obtain rfl := Host.Outcome.next.inj (hstep.symm.trans h)
  exact ⟨by simp, hp⟩

/-- The three commands by their slots: each transmits the slot it sets with the other as it stands (R98, R99, R101). -/
theorem exec_setMods (m : ModSet) (s : State) : exec (.setMods m) s = .next (s.transmit m s.ks) := rfl

theorem exec_setKey (k : Keycode) (s : State) : exec (.setKey k) s = .next (s.transmit s.ms k) := rfl

theorem exec_setKeyNone (s : State) : exec .setKeyNone s = .next (s.transmit s.ms noKey) := rfl

/-- R101: the initial slots are the configuration's. -/
theorem resetWith_slots (c : Config) : (State.resetWith c).ms = c.hostMods ∧ (State.resetWith c).ks = c.hostKey :=
  ⟨rfl, rfl⟩

/-- Settles O28: each command transmits with its slot set, and transmitting writes the slots and the reports alone. -/
theorem commandsSetHostSlots : Obligations.CommandsSetHostSlots :=
  ⟨fun s m => exec_setMods m s, fun s k => exec_setKey k s, exec_setKeyNone, resetWith_slots⟩

end Sys2Proof.Machine

/-! ## Reset: the rise of `rst`, the events held while it is 1, and its release (70_reset_and_hazards.md) -/

namespace Sys2Proof.Machine

theorem exec_reset (s : State) : exec .reset s = .next s.resetRegisters := rfl

/-- The step on a placed level of `rst`: its rise executes RESET, its fall only lowers the level (R121, R125). -/
theorem step_reset_rise_of_stimulus {s : State} {es : List Event} (hs : s.stimulus = .rst true :: es) :
    step s = .next { s with rst := true, stimulus := es }.resetRegisters := by
  rw [step_rst_high (nextEvent_cons s _ _ hs), afterDraw_cons s _ _ hs]

theorem step_reset_fall_of_stimulus {s : State} {es : List Event} (hs : s.stimulus = .rst false :: es) :
    step s = .next { s with rst := false, stimulus := es } := by
  rw [step_rst_low (nextEvent_cons s _ _ hs), afterDraw_cons s _ _ hs]

/-- R72, R121: in reset the step on a placed edge or `clk` only draws the event. -/
theorem step_held_of_stimulus {s : State} {e : Event} {es : List Event} (hr : s.rst = true)
    (he : (∃ d, e = .kbdFall d) ∨ ∃ r, e = .clk r) (hs : s.stimulus = e :: es) :
    step s = .next { s with stimulus := es } := by
  rw [← nextEvent_cons s e es hs] at he
  rw [step_held_in_reset hr he, afterDraw_cons s e es hs]

/-- Registers at reset give the Processor waiting: `last_seen` and the phase (R15). -/
theorem State.registersAtReset.waiting {s : State} (h : s.registersAtReset) : s.lastSeen = 0 ∧ s.phase = .idle := by
  have hreset : s.resetRegisters = s := h
  rw [← hreset]
  exact ⟨rfl, rfl⟩

/-- R66: the first edge of a frame, from an empty frame register. -/
theorem exec_edge_first {s : State} (d : BitVec 1) (hr : s.rst = false) (hbc : s.bc = 0) (hsr : s.sr = 0) :
    ∃ u, exec (.edge d) s = .next u ∧ u.bc.val = 1 ∧ u.sr = d.setWidth 10 ∧ u.led = true := by
  have hroom : s.bc.val < 9 := by simp [hbc]
  refine ⟨s.shiftIn d, exec_edge_shift d hr hroom, ?_, ?_, ?_⟩
  · rw [shiftIn_bc_val hroom, hbc]; rfl
  · simp [shifted, hsr]
  · simp [ledAfterShift, hbc]

/-- Settles O32: the invariant holds the registers at their reset values until `rst` falls, and the fall writes no
register. -/
theorem resetReleaseStartsIdle : Obligations.ResetReleaseStartsIdle := by
  intro s rest hinv hr hs
  obtain ⟨hsr, hbc, hled, _, hcount⟩ := (hinv.reset_held hr).sampler_domain
  obtain ⟨hseen, hphase⟩ := (hinv.reset_held hr).waiting
  exact ⟨_, step_reset_fall_of_stimulus hs, rfl, congrArg Fin.val hbc, hphase, hcount.trans hseen.symm, hled,
    txValid_idle hphase, fun d => exec_edge_first d rfl hbc hsr⟩

/-- Settles O31: RESET is the write of the nine registers, the rise of `rst` executes it, and events held in reset are
only drawn. -/
theorem resetWritesEveryRegister : Obligations.ResetWritesEveryRegister := by
  refine ⟨exec_reset, fun s rest hs => ?_, fun s d r rest hr hs => ?_⟩
  · exact ⟨_, step_reset_rise_of_stimulus hs, exec_reset _, txValid_idle (resetRegisters_phase _), rfl, rfl⟩
  · obtain hfall | hclk := hs
    · exact step_held_of_stimulus hr (.inl ⟨d, rfl⟩) hfall
    · exact step_held_of_stimulus hr (.inr ⟨r, rfl⟩) hclk

end Sys2Proof.Machine

/-! ## The step as a function of the event, and what the Sampler leaves -/

namespace Sys2Proof.Machine

/-- The Sampler's step leaves whatever its shifting and its completing step both leave. -/
theorem sample_keeps {α : Type} (field : State → α) {s : State} {d : BitVec 1}
    (hshift : field (s.shiftIn d) = field s) (hcomplete : field (s.completeFrame d) = field s) :
    field (s.sample d) = field s := by
  by_cases hbc : s.bc.val < 9
  · rw [sample_shift hbc, hshift]
  · rw [sample_complete (by omega), hcomplete]

section Fields

variable (s : State) (d : BitVec 1)

@[simp] theorem sample_lastSeen : (s.sample d).lastSeen = s.lastSeen := sample_keeps State.lastSeen rfl rfl
@[simp] theorem sample_mods : (s.sample d).mods = s.mods := sample_keeps State.mods rfl rfl
@[simp] theorem sample_phase : (s.sample d).phase = s.phase := sample_keeps State.phase rfl rfl
@[simp] theorem sample_pendKey : (s.sample d).pendKey = s.pendKey := sample_keeps State.pendKey rfl rfl
@[simp] theorem sample_cfg : (s.sample d).cfg = s.cfg := sample_keeps State.cfg rfl rfl
@[simp] theorem sample_rst : (s.sample d).rst = s.rst := sample_keeps State.rst rfl rfl
@[simp] theorem sample_trace : (s.sample d).trace = s.trace := sample_keeps State.trace rfl rfl
@[simp] theorem sample_ms : (s.sample d).ms = s.ms := sample_keeps State.ms rfl rfl
@[simp] theorem sample_ks : (s.sample d).ks = s.ks := sample_keeps State.ks rfl rfl
@[simp] theorem sample_reports : (s.sample d).reports = s.reports := sample_keeps State.reports rfl rfl
@[simp] theorem sample_draws : (s.sample d).draws = s.draws := sample_keeps State.draws rfl rfl

end Fields

/-- The state a `clk` leaves once it is drawn (R75 to R86, R101, R114): nothing in reset; in IDLE a take where a frame
is new; elsewhere the report of the phase with the transport's act, where the transport accepts. -/
def State.clocked (r : Bool) (s : State) : State :=
  if s.rst then s
  else
    match s.phase, r with
    | .idle, _ =>
      if s.newFrame then s.taken s.hcCount (modsAfterTake s.cfg s.hcFrame s.mods) (keyAfterTake s.cfg s.hcFrame) else s
    | .mods, true =>
      (s.emit (setModsWord s.mods) (if s.pendKey != noKey then .keydn else .idle)).transmit s.mods s.ks
    | .keydn, true => (s.emit (setKeyWord s.pendKey) .keyup).transmit s.ms s.pendKey
    | .keyup, true => (s.emit (setKeyWord noKey) .idle).transmit s.ms noKey
    | _, false => s

/-- The state an event leaves once it is drawn. -/
def State.react (e : Event) (s : State) : State :=
  match e with
  | .kbdRise => s
  | .kbdFall d => if s.rst then s else s.sample d
  | .clk r => s.clocked r
  | .rst true => { s with rst := true }.resetRegisters
  | .rst false => { s with rst := false }

@[simp] theorem react_clk (r : Bool) (s : State) : s.react (.clk r) = s.clocked r := rfl

theorem react_kbdFall {s : State} (d : BitVec 1) (hr : s.rst = false) : s.react (.kbdFall d) = s.sample d := by
  simp [State.react, hr]

/-- A frame is new when the cell's count is not the count last seen (R75, R76). -/
theorem newFrame_iff {s : State} : s.newFrame = true ↔ s.hcCount ≠ s.lastSeen := by
  simp [State.newFrame, State.snapshot]

section Clocked

variable {s : State} {r : Bool}

theorem clocked_in_reset (hr : s.rst = true) : s.clocked r = s := by simp [State.clocked, hr]

theorem clocked_take (hr : s.rst = false) (hp : s.phase = .idle) (hn : s.hcCount ≠ s.lastSeen) :
    s.clocked r = s.taken s.hcCount (modsAfterTake s.cfg s.hcFrame s.mods) (keyAfterTake s.cfg s.hcFrame) := by
  simp [State.clocked, hr, hp, newFrame_iff.mpr hn]

theorem clocked_poll (hp : s.phase = .idle) (hn : s.hcCount = s.lastSeen) : s.clocked r = s := by
  simp [State.clocked, hp, State.newFrame, State.snapshot, hn]

theorem clocked_hold (hp : s.phase ≠ .idle) : s.clocked false = s := by
  cases hq : s.phase <;> simp_all [State.clocked]

theorem clocked_mods (hr : s.rst = false) (hp : s.phase = .mods) :
    s.clocked true =
      (s.emit (setModsWord s.mods) (if s.pendKey != noKey then .keydn else .idle)).transmit s.mods s.ks := by
  simp [State.clocked, hr, hp]

theorem clocked_keydn (hr : s.rst = false) (hp : s.phase = .keydn) :
    s.clocked true = (s.emit (setKeyWord s.pendKey) .keyup).transmit s.ms s.pendKey := by
  simp [State.clocked, hr, hp]

theorem clocked_keyup (hr : s.rst = false) (hp : s.phase = .keyup) :
    s.clocked true = (s.emit (setKeyWord noKey) .idle).transmit s.ms noKey := by
  simp [State.clocked, hr, hp]

/-- Everything a `clk` can do, once drawn. -/
inductive ClockCase (s : State) : Bool → State → Prop where
  | unchanged (r : Bool) (h : s.rst = true ∨ s.quiescent = true ∨ s.phase ≠ .idle ∧ r = false) : ClockCase s r s
  | take (r : Bool) (hr : s.rst = false) (hp : s.phase = .idle) (hn : s.hcCount ≠ s.lastSeen) :
      ClockCase s r (s.taken s.hcCount (modsAfterTake s.cfg s.hcFrame s.mods) (keyAfterTake s.cfg s.hcFrame))
  | mods (hr : s.rst = false) (hp : s.phase = .mods) :
      ClockCase s true
        ((s.emit (setModsWord s.mods) (if s.pendKey != noKey then .keydn else .idle)).transmit s.mods s.ks)
  | keydn (hr : s.rst = false) (hp : s.phase = .keydn) :
      ClockCase s true ((s.emit (setKeyWord s.pendKey) .keyup).transmit s.ms s.pendKey)
  | keyup (hr : s.rst = false) (hp : s.phase = .keyup) :
      ClockCase s true ((s.emit (setKeyWord noKey) .idle).transmit s.ms noKey)

theorem quiescent_iff : s.quiescent = true ↔ s.phase = .idle ∧ s.hcCount = s.lastSeen := by simp [State.quiescent]

theorem clocked_cases {t : State} (h : s.clocked r = t) : ClockCase s r t := by
  subst h
  cases hr : s.rst with
  | true => rw [clocked_in_reset hr]; exact .unchanged r (.inl hr)
  | false =>
    by_cases hp : s.phase = .idle
    · by_cases hn : s.hcCount = s.lastSeen
      · rw [clocked_poll hp hn]; exact .unchanged r (.inr (.inl (quiescent_iff.mpr ⟨hp, hn⟩)))
      · rw [clocked_take hr hp hn]; exact .take r hr hp hn
    · cases r with
      | false => rw [clocked_hold hp]; exact .unchanged false (.inr (.inr ⟨hp, rfl⟩))
      | true =>
        cases hq : s.phase with
        | idle => exact absurd hq hp
        | mods => rw [clocked_mods hr hq]; exact .mods hr hq
        | keydn => rw [clocked_keydn hr hq]; exact .keydn hr hq
        | keyup => rw [clocked_keyup hr hq]; exact .keyup hr hq

end Clocked

/-- The step draws its event and reacts to it: `State.react` is the machine's own step. -/
theorem step_eq_react (s : State) : step s = .next (s.afterDraw.react s.nextEvent) := by
  cases he : s.nextEvent with
  | kbdRise => exact step_kbdRise he
  | rst level =>
    cases level with
    | false => exact step_rst_low he
    | true => exact step_rst_high he
  | kbdFall d =>
    cases hr : s.rst with
    | false => rw [step_kbdFall he hr, react_kbdFall d (by simp [hr])]
    | true => simp [step_held_in_reset hr (.inl ⟨d, he⟩), State.react, hr]
  | clk r =>
    cases hr : s.rst with
    | true => rw [step_held_in_reset hr (.inr ⟨r, he⟩), react_clk, clocked_in_reset (by simp [hr])]
    | false =>
      by_cases hp : s.phase = .idle
      · by_cases hn : s.hcCount = s.lastSeen
        · rw [step_poll he hr hp hn, react_clk, clocked_poll (by simp [hp]) (by simp [hn])]
        · rw [step_take ⟨⟨r, he⟩, hr, hp, newFrame_iff.mpr hn⟩, react_clk,
            clocked_take (by simp [hr]) (by simp [hp]) (by simp [hn])]
          simp
      · cases r with
        | false => rw [step_hold he hr hp, react_clk, clocked_hold (by simp [hp])]
        | true =>
          cases hq : s.phase with
          | idle => exact absurd hq hp
          | mods => rw [step_emitMods he hr hq, react_clk, clocked_mods (by simp [hr]) (by simp [hq])]; simp
          | keydn => rw [step_emitKeydn he hr hq, react_clk, clocked_keydn (by simp [hr]) (by simp [hq])]; simp
          | keyup => rw [step_emitKeyup he hr hq, react_clk, clocked_keyup (by simp [hr]) (by simp [hq])]; simp

theorem eq_react_of_step {s t : State} (h : step s = .next t) : t = s.afterDraw.react s.nextEvent :=
  Host.Outcome.next.inj (h.symm.trans (step_eq_react s))

/-- The step on a placed event, and on the event at the head of the stimulus. -/
theorem stepWith_eq_react (e : Event) (s : State) : s.stepWith e = .next (s.react e) := step_eq_react (s.place e)

theorem step_of_stimulus {s : State} {e : Event} {es : List Event} (hs : s.stimulus = e :: es) :
    step s = .next (State.react e { s with stimulus := es }) := by
  rw [step_eq_react, nextEvent_cons s e es hs, afterDraw_cons s e es hs]

/-- Two placed events, in order. -/
theorem stepAll_pair (e e' : Event) (s : State) : s.stepAll [e, e'] = .next ((s.react e).react e') := by
  simp only [State.stepAll, stepWith_eq_react]

/-- Settles O42: the step is a reaction, and every reaction is a state. -/
theorem everyStepAnswersNext : Obligations.EveryStepAnswersNext := fun s => ⟨_, step_eq_react s⟩

end Sys2Proof.Machine

/-! ## Decoding and encoding are inverse to each other (30_encoding.md) -/

namespace Sys2Proof.Machine

theorem decodeFrame_frameOf_press (scHi : BitVec 9) : decodeFrame (frameOf scHi 0#1) = .takePress scHi := by
  simp [decodeFrame]

theorem decodeFrame_frameOf_release (scHi : BitVec 9) : decodeFrame (frameOf scHi 1#1) = .takeRelease scHi := by
  simp [decodeFrame]

theorem decodePhase_hold {p : Phase} (hp : p ≠ .idle) : decodePhase p false = .hold p := by
  cases p with
  | idle => exact absurd rfl hp
  | mods | keydn | keyup => rfl

/-- Settles O35: each format's decoder gives back the operation whose fields the encoder put together. -/
theorem decodeEncodeRoundTrip : Obligations.DecodeEncodeRoundTrip := by
  intro i hwf
  cases i with
  | edge | reset | poll | emitMods | emitKeydn | emitKeyup | setKeyNone => rfl
  | takePress scHi => exact congrArg Except.ok (decodeFrame_frameOf_press scHi)
  | takeRelease scHi => exact congrArg Except.ok (decodeFrame_frameOf_release scHi)
  | hold p =>
    have hp : p ≠ .idle := by simpa [Instr.wellFormed] using hwf
    simp [encode, decode, decodePhase_hold hp]
  | setMods m => exact congrArg Except.ok (decodeCmd_setMods m)
  | setKey k =>
    have hk : k ≠ noKey := by simpa [Instr.wellFormed] using hwf
    exact congrArg Except.ok ((decodeCmd_setKey k).trans (if_neg hk))

theorem bits_phaseOf : ∀ p : BitVec 2, (phaseOf p).bits = p := by decide

/-- Every frame is one take's, and encodes back (R52, R56). -/
theorem encode_decodeFrame (f : Frame) : encode (decodeFrame f) = .frame f := by
  cases hf : relFlag f with
  | false => simp [decodeFrame, hf, encode, frameOf_upperBits_press f hf]
  | true => simp [decodeFrame, hf, encode, frameOf_upperBits_release f hf]

theorem wellFormed_decodeFrame (f : Frame) : (decodeFrame f).wellFormed = true := by
  cases hf : relFlag f <;> simp [decodeFrame, hf, Instr.wellFormed]

/-- A command word is its two fields (R57). -/
theorem cmdWord_fields {w : CmdWord} {c : BitVec 1} (h : cmdBit w = c.getLsbD 0) : cmdWord c (cmdArg w) = w := by
  apply BitVec.eq_of_getLsbD_eq
  intro i hi
  rw [cmdWord_getLsbD]
  split
  · simp [cmdArg, *]
  · obtain rfl : i = 8 := by omega
    exact h.symm

/-- Every command word is one command's, and encodes back (R57, R58). -/
theorem encode_decodeCmd (w : CmdWord) : encode (decodeCmd w) = .cmd w := by
  cases hc : cmdBit w with
  | false => simp [decodeCmd, hc, encode, cmdWord_fields (c := 0#1) hc]
  | true =>
    have hw : cmdWord 1#1 (cmdArg w) = w := cmdWord_fields hc
    by_cases hk : cmdArg w = noKey
    · have hnone : decodeCmd w = .setKeyNone := by simp [decodeCmd, hc, hk]
      rw [hnone, ← hw, hk]
      rfl
    · simp [decodeCmd, hc, hk, encode, hw]

theorem wellFormed_decodeCmd (w : CmdWord) : (decodeCmd w).wellFormed = true := by
  unfold decodeCmd
  split
  · split <;> simp [Instr.wellFormed, *]
  · rfl

/-- A phase value encodes back, but for IDLE with `tx_ready` low, which polls. -/
theorem encode_decodePhase (p : Phase) (r : Bool) :
    encode (decodePhase p r) = .phase p.bits r ∨ (p = .idle ∧ r = false) := by
  cases p <;> cases r <;> decide

theorem wellFormed_decodePhase (p : Phase) (r : Bool) : (decodePhase p r).wellFormed = true := by
  cases p <;> cases r <;> rfl

/-- Settles O36, format by format. -/
theorem encodeDecodeRoundTrip : Obligations.EncodeDecodeRoundTrip := by
  intro v i h
  cases v with
  | edge d => cases h; exact ⟨rfl, .inl rfl⟩
  | frame f => cases h; exact ⟨wellFormed_decodeFrame f, .inl (encode_decodeFrame f)⟩
  | cmd w => cases h; exact ⟨wellFormed_decodeCmd w, .inl (encode_decodeCmd w)⟩
  | signal r =>
    by_cases hr : r = 1#1
    · subst hr; cases h; exact ⟨rfl, .inl rfl⟩
    · simp [decode, hr] at h
  | phase p r =>
    cases h
    refine ⟨wellFormed_decodePhase _ r, (encode_decodePhase (phaseOf p) r).imp ?_ ?_⟩
    · rw [bits_phaseOf]; exact id
    · rintro ⟨hp, rfl⟩
      have hbits := bits_phaseOf p
      rw [hp] at hbits
      exact ⟨by rw [← hbits]; rfl, by rw [hp]; rfl⟩

/-- The decoder's one rejection of an encoded value is the low signal (R121, R125). -/
theorem decode_eq_error {v : Encoded} {e : DecodeError} : decode v = .error e ↔ v = .signal 0#1 ∧ e = .signalLow := by
  cases v with
  | edge | frame | phase | cmd => simp [decode]
  | signal r =>
    obtain rfl | rfl := BitVec.eq_zero_or_eq_one r
    · simp [decode, eq_comm]
    · simp [decode]

theorem ofNat_tooWide {fmt : Format} {r : Bool} {w : Nat} (h : 2 ^ fmt.width ≤ w) :
    Encoded.ofNat fmt r w = .error .tooWide := if_neg (by omega)

/-- A number that fits is a value of its format, and the low signal when it is the signal 0. -/
theorem ofNat_fits {fmt : Format} {w : Nat} (r : Bool) (h : w < 2 ^ fmt.width) :
    ∃ v, Encoded.ofNat fmt r w = .ok v ∧ (v = .signal 0#1 ↔ fmt = .signal ∧ w = 0) := by
  refine ⟨_, if_pos h, ?_⟩
  cases fmt with
  | edge | frame | phase | cmd => simp
  | signal =>
    have hw : w = 0 ∨ w = 1 := by simp only [Format.width] at h; omega
    obtain rfl | rfl := hw <;> simp

/-- Settles O37: a number that does not fit is too wide, and one that fits is rejected as its value is. -/
theorem decoderAcceptsFormatWidths : Obligations.DecoderAcceptsFormatWidths := by
  intro fmt r w
  by_cases hw : 2 ^ fmt.width ≤ w
  · have hzero : w ≠ 0 := by have := Nat.two_pow_pos fmt.width; omega
    simp [decodeNat, ofNat_tooWide hw, hw, hzero]
  · obtain ⟨v, hv, hlow⟩ := ofNat_fits r (Nat.lt_of_not_le hw)
    simp [decodeNat, hv, decode_eq_error, hlow, hw]

/-- Settles O38: the ten words are closed terms of the decoder. -/
theorem specWordsDecode : Obligations.SpecWordsDecode := by unfold Obligations.SpecWordsDecode; decide

end Sys2Proof.Machine

/-! ## The invariant of the reachable states (10_state.md section 2) -/

namespace Sys2Proof.Machine

/-- R66: a shift makes a register of `n` bits one of `n + 1` bits. -/
theorem shifted_toNat_lt {sr : Frame} {n : Nat} (d : BitVec 1) (h : sr.toNat < 2 ^ n) :
    (shifted sr d).toNat < 2 ^ (n + 1) := by
  rw [shifted, BitVec.toNat_or]
  refine Nat.or_lt_two_pow ?_ ?_
  · have : sr.toNat <<< 1 % 2 ^ 10 ≤ sr.toNat <<< 1 := Nat.mod_le _ _
    rw [BitVec.toNat_shiftLeft]
    omega
  · have hd := d.isLt
    have : 2 ^ 1 ≤ 2 ^ (n + 1) := Nat.pow_le_pow_right (by omega) (by omega)
    rw [BitVec.toNat_setWidth]
    omega

/-- Drawing an event moves the model's own stimulus and counter, and nothing else. -/
theorem afterDraw_eq_withEvents (s : State) : ∃ es n, s.afterDraw = { s with stimulus := es, draws := n } := by
  unfold State.afterDraw
  split <;> exact ⟨_, _, rfl⟩

/-- The key a take makes due is `none` or a keycode of the table (R58, R81, R82). -/
theorem keyAfterTake_known (c : Config) (f : Frame) :
    keyAfterTake c f = noKey ∨ ∃ e ∈ c.regTable, e.2 = keyAfterTake c f := by
  cases hf : relFlag f with
  | true => exact .inl (by simp [keyAfterTake, hf])
  | false => simpa [keyAfterTake, hf] using regLookup_known c.regTable (scanCode f)

namespace State.Inv

variable {s : State}

theorem withEvents (h : s.Inv) (es : List Event) (n : Nat) : { s with stimulus := es, draws := n }.Inv where
  frame_fits := h.frame_fits
  led_in_progress := h.led_in_progress
  count_fits := h.count_fits
  seen_fits := h.seen_fits
  key_due := h.key_due
  key_known := h.key_known
  reset_held hr := show State.resetRegisters _ = _ from
    congrArg (fun u : State => { u with stimulus := es, draws := n }) (h.reset_held hr)

theorem afterDraw (h : s.Inv) : s.afterDraw.Inv := by
  obtain ⟨es, n, hs⟩ := afterDraw_eq_withEvents s
  exact hs ▸ h.withEvents es n

/-- R125: the fall of `rst`. -/
theorem lowerRst (h : s.Inv) : { s with rst := false }.Inv :=
  { h with reset_held := nofun }

/-- R121: RESET, whatever the state and the level of `rst`. -/
theorem resetRegisters (s : State) : s.resetRegisters.Inv where
  frame_fits := Nat.two_pow_pos _
  led_in_progress := by simp
  count_fits := Nat.two_pow_pos _
  seen_fits := Nat.two_pow_pos _
  key_due := nofun
  key_known := .inl rfl
  reset_held _ := rfl

/-- R66, R67: the Sampler's step outside reset. Below nine bits the frame register grows by one bit and `led` is 1; at
nine they are as at reset and the count is reduced. -/
theorem sample (h : s.Inv) (hr : s.rst = false) (d : BitVec 1) : (s.sample d).Inv := by
  by_cases hbc : s.bc.val < 9
  · rw [sample_shift hbc]
    have hcount : (s.shiftIn d).bc.val = s.bc.val + 1 := shiftIn_bc_val hbc
    have hled : (s.shiftIn d).led = true := by
      by_cases hzero : s.bc.val = 0
      · simp [ledAfterShift, hzero]
      · simpa [ledAfterShift, hzero] using h.led_in_progress.mpr hzero
    exact
      { h with
        frame_fits := hcount ▸ shifted_toNat_lt d h.frame_fits
        led_in_progress := ⟨fun _ => by omega, fun _ => hled⟩
        reset_held := fun hr' => absurd hr' (by simp [hr]) }
  · rw [sample_complete (by omega)]
    exact
      { h with
        frame_fits := Nat.two_pow_pos _
        led_in_progress := by simp
        count_fits := nextCount_lt _ _
        reset_held := fun hr' => absurd hr' (by simp [hr]) }

/-- R76: a take sees the count of the cell and makes a key of the table due, or none. -/
theorem take (h : s.Inv) (hr : s.rst = false) (m : ModSet) :
    (s.taken s.hcCount m (keyAfterTake s.cfg s.hcFrame)).Inv :=
  { h with
    seen_fits := h.count_fits
    key_due := nofun
    key_known := keyAfterTake_known s.cfg s.hcFrame
    reset_held := fun hr' => absurd hr' (by simp [hr]) }

/-- R83 to R85: a report, with the transport's act, where a key is due in the phase it leads to. -/
theorem report (h : s.Inv) (hr : s.rst = false) {p : Phase} (hp : p = .keydn ∨ p = .keyup → s.pendKey ≠ noKey)
    (w : CmdWord) (m : ModSet) (k : Keycode) : ((s.emit w p).transmit m k).Inv :=
  { h with
    key_due := hp
    reset_held := fun hr' => absurd hr' (by simp [hr]) }

theorem clocked (h : s.Inv) (r : Bool) : (s.clocked r).Inv := by
  generalize ht : s.clocked r = t
  cases clocked_cases ht with
  | unchanged => exact h
  | take _ hr => exact h.take hr _
  | mods hr => exact h.report hr (by split <;> simp_all) _ _ _
  | keydn hr hp => exact h.report hr (fun _ => h.key_due (.inl hp)) _ _ _
  | keyup hr => exact h.report hr (by simp) _ _ _

theorem react (h : s.Inv) (e : Event) : (s.react e).Inv := by
  cases e with
  | kbdRise => exact h
  | clk r => exact h.clocked r
  | kbdFall d =>
    cases hr : s.rst with
    | true => simpa [State.react, hr] using h
    | false => simpa [State.react, hr] using h.sample hr d
  | rst level =>
    cases level with
    | true => exact resetRegisters _
    | false => exact h.lowerRst

end State.Inv

/-- Settles O43: the draw and the reaction each keep the invariant. -/
theorem stepKeepsInvariant : Obligations.StepKeepsInvariant := by
  intro s t h hstep
  rw [eq_react_of_step hstep]
  exact h.afterDraw.react _

/-- The reset state is a state right after RESET. -/
theorem resetWith_inv (c : Config) : (State.resetWith c).Inv := State.Inv.resetRegisters (State.resetWith c)

/-- Settles O44: the reset state is its own reset, with an empty trace in IDLE. -/
theorem resetMeetsInvariant : Obligations.ResetMeetsInvariant :=
  fun c => ⟨resetWith_inv c, [], rfl, .none⟩

/-- Settles O33: the reset state's fields are its definition. -/
theorem resetStateValues : Obligations.ResetStateValues :=
  ⟨fun _ => ⟨rfl, rfl, rfl, rfl, rfl, rfl, rfl, rfl, rfl, rfl, rfl, rfl⟩, rfl⟩

end Sys2Proof.Machine

/-! ## The trace since the last reset, one group per frame taken (42_transport.md section 2) -/

namespace Sys2Proof.Machine

theorem afterDraw_sameOffer (s : State) : s.SameOffer s.afterDraw := by
  constructor <;> simp

theorem State.takes_iff {s : State} :
    s.takes ↔ ∃ r, s.nextEvent = .clk r ∧ s.rst = false ∧ s.phase = .idle ∧ s.hcCount ≠ s.lastSeen := by
  simp [State.takes, newFrame_iff]

section TraceFits

variable {s : State} {before : List CmdWord} {n : Nat}

/-- The trace predicate reads the phase, `pend_key` and the trace alone. -/
theorem State.SameOffer.traceFits {t : State} (h : s.SameOffer t) (hs : s.traceFits before n) :
    t.traceFits before n := by
  simpa [State.traceFits, State.wordsFit, h.phase, h.pendKey, h.trace] using hs

/-- R103: a take opens a group. -/
theorem traceFits_taken (hp : s.phase = .idle) (h : s.traceFits before n) (c : Nat) (m : ModSet) (k : Keycode) :
    (s.taken c m k).traceFits before (n + 1) := by
  obtain ⟨ws, htrace, hws⟩ := h
  have hgroups : FrameGroups n ws := by simpa [State.wordsFit, hp] using hws
  exact ⟨ws, htrace, n, rfl, hgroups⟩

/-- R103: the modifier report closes the group, or leads to the key press. -/
theorem traceFits_emitMods (hp : s.phase = .mods) (h : s.traceFits before n) (m : ModSet) (k : Keycode) :
    ((s.emit (setModsWord s.mods) (if s.pendKey != noKey then .keydn else .idle)).transmit m k).traceFits before n := by
  obtain ⟨ws, htrace, hws⟩ := h
  obtain ⟨j, rfl, hgroups⟩ : ∃ j, n = j + 1 ∧ FrameGroups j ws := by simpa [State.wordsFit, hp] using hws
  refine ⟨ws ++ [setModsWord s.mods], by simp [htrace], ?_⟩
  by_cases hk : s.pendKey = noKey
  · rw [if_neg (by simpa using hk)]
    exact hgroups.report j ws s.mods
  · rw [if_pos (by simpa using hk)]
    exact ⟨j, ws, s.mods, rfl, hgroups, rfl⟩

/-- R103: the key-press report leads to the key release. -/
theorem traceFits_emitKeydn (hp : s.phase = .keydn) (h : s.traceFits before n) (m : ModSet) (k : Keycode) :
    ((s.emit (setKeyWord s.pendKey) .keyup).transmit m k).traceFits before n := by
  obtain ⟨ws, htrace, hws⟩ := h
  obtain ⟨j, gs, m', rfl, hgroups, rfl⟩ :
      ∃ j gs m', n = j + 1 ∧ FrameGroups j gs ∧ ws = gs ++ [setModsWord m'] := by simpa [State.wordsFit, hp] using hws
  exact ⟨gs ++ [setModsWord m', setKeyWord s.pendKey], by simp [htrace], j, gs, m', rfl, hgroups, rfl⟩

/-- R103: the key-release report closes a tap. -/
theorem traceFits_emitKeyup (hp : s.phase = .keyup) (hk : s.pendKey ≠ noKey) (h : s.traceFits before n) (m : ModSet)
    (k : Keycode) : ((s.emit (setKeyWord noKey) .idle).transmit m k).traceFits before n := by
  obtain ⟨ws, htrace, hws⟩ := h
  obtain ⟨j, gs, m', rfl, hgroups, rfl⟩ :
      ∃ j gs m', n = j + 1 ∧ FrameGroups j gs ∧ ws = gs ++ [setModsWord m', setKeyWord s.pendKey] := by
    simpa [State.wordsFit, hp] using hws
  exact ⟨gs ++ [setModsWord m', setKeyWord s.pendKey, setKeyWord noKey], by simp [htrace],
    hgroups.tap j gs m' s.pendKey hk⟩

end TraceFits

/-- A step that neither takes nor resets leaves the number of groups: it leaves the offer, or it is one of the three
reports. -/
theorem step_keeps_traceFits {s t : State} {before : List CmdWord} {n : Nat} (hinv : s.Inv) (h : s.traceFits before n)
    (hstep : step s = .next t) (hreset : s.nextEvent ≠ .rst true) (htake : ¬ s.takes) : t.traceFits before n := by
  have hdrawn := (afterDraw_sameOffer s).traceFits h
  cases step_cases hstep with
  | rise | heldEdge | heldClock | poll | hold => exact hdrawn
  | resetLow => exact hdrawn
  | edge d => exact (sample_sameOffer _ d).traceFits hdrawn
  | resetHigh he => exact absurd he hreset
  | takePress r he hr hp hn | takeRelease r he hr hp hn => exact absurd (State.takes_iff.mpr ⟨r, he, hr, hp, hn⟩) htake
  | emitMods _ _ hp => simpa using traceFits_emitMods (s := s.afterDraw) (by simpa using hp) hdrawn s.mods s.ks
  | emitKeydn _ _ hp => simpa using traceFits_emitKeydn (s := s.afterDraw) (by simpa using hp) hdrawn s.ms s.pendKey
  | emitKeyup _ _ hp =>
    exact traceFits_emitKeyup (by simpa using hp) (by simpa using hinv.key_due (.inr hp)) hdrawn _ _

/-- Settles O45: reset starts the sequence anew, a take opens a group, and any other step leaves their number. -/
theorem stepKeepsTraceGroups : Obligations.StepKeepsTraceGroups := by
  intro s t before n hinv h hstep
  refine ⟨fun he => ?_, fun htake => ?_, step_keeps_traceFits hinv h hstep⟩
  · obtain rfl := Host.Outcome.next.inj ((step_rst_high he).symm.trans hstep)
    exact ⟨[], by simp, .none⟩
  · obtain rfl := Host.Outcome.next.inj ((step_take htake).symm.trans hstep)
    have hdrawn := (afterDraw_sameOffer s).traceFits h
    obtain ⟨-, -, hp, -⟩ := htake
    exact traceFits_taken (by simpa using hp) hdrawn _ _ _

end Sys2Proof.Machine

/-! ## The Sampler and the Processor do not interfere (40_sampler.md sections 2 and 3, 60_exceptions.md section 2) -/

namespace Sys2Proof.Machine

/-- `s` and `t` agree on what the Sampler's step reads and writes: its registers, the cell, COUNT_W and the level of
`rst`. -/
structure State.SameSampler (s t : State) : Prop where
  sr : s.sr = t.sr
  bc : s.bc = t.bc
  led : s.led = t.led
  hcFrame : s.hcFrame = t.hcFrame
  hcCount : s.hcCount = t.hcCount
  countW : s.cfg.countW = t.cfg.countW
  rst : s.rst = t.rst

theorem afterDraw_sameSampler (s : State) : s.afterDraw.SameSampler s := by
  constructor <;> simp

/-- R105: a `clk` writes nothing of the Sampler's side. -/
theorem clocked_sameSampler (s : State) (r : Bool) : (s.clocked r).SameSampler s := by
  generalize ht : s.clocked r = t
  cases clocked_cases ht with
  | unchanged | take | mods | keydn | keyup => constructor <;> rfl

namespace State.SameSampler

variable {s t u : State}

theorem symm (h : s.SameSampler t) : t.SameSampler s :=
  ⟨h.sr.symm, h.bc.symm, h.led.symm, h.hcFrame.symm, h.hcCount.symm, h.countW.symm, h.rst.symm⟩

theorem trans (h : s.SameSampler t) (h' : t.SameSampler u) : s.SameSampler u :=
  ⟨h.sr.trans h'.sr, h.bc.trans h'.bc, h.led.trans h'.led, h.hcFrame.trans h'.hcFrame, h.hcCount.trans h'.hcCount,
    h.countW.trans h'.countW, h.rst.trans h'.rst⟩

/-- R66, R67: the Sampler's step reads its own side alone. -/
theorem sample (h : s.SameSampler t) (d : BitVec 1) : (s.sample d).SameSampler (t.sample d) := by
  by_cases hbc : s.bc.val < 9
  · rw [sample_shift hbc, sample_shift (h.bc ▸ hbc)]
    constructor <;> simp [h.sr, h.bc, h.led, h.hcFrame, h.hcCount, h.countW, h.rst]
  · rw [sample_complete (by omega), sample_complete (by rw [← h.bc]; omega)]
    constructor <;> simp [nextCount, h.sr, h.hcCount, h.countW, h.rst]

theorem react (h : s.SameSampler t) (e : Event) : (s.react e).SameSampler (t.react e) := by
  cases e with
  | kbdRise => exact h
  | clk r => exact (clocked_sameSampler s r).trans (h.trans (clocked_sameSampler t r).symm)
  | kbdFall d =>
    cases hr : s.rst with
    | true => simpa [State.react, hr, ← h.rst] using h
    | false => simpa [State.react, hr, ← h.rst] using h.sample d
  | rst level =>
    cases level with
    | true => exact { h with sr := rfl, bc := rfl, led := rfl, hcFrame := rfl, hcCount := rfl, rst := rfl }
    | false => exact { h with rst := rfl }

end State.SameSampler

/-- Settles O49: the draws agree, and the reactions to one event then agree. -/
theorem samplerIndependentOfProcessor : Obligations.SamplerIndependentOfProcessor := by
  intro s s' t t' hsr hbc hled hframe hcount hwidth hrst hevent hstep hstep'
  have hsame : s.SameSampler s' := ⟨hsr, hbc, hled, hframe, hcount, hwidth, hrst⟩
  have hdrawn := (afterDraw_sameSampler s).trans (hsame.trans (afterDraw_sameSampler s').symm)
  rw [eq_react_of_step hstep, eq_react_of_step hstep', ← hevent]
  obtain ⟨hsr, hbc, hled, hframe, hcount, -, hrst⟩ := hdrawn.react s.nextEvent
  exact ⟨hsr, hbc, hled, hframe, hcount, hrst⟩

/-- The state with another frame in progress: `sr`, `bc` and `led`. -/
def State.withProgress (sr : Frame) (bc : BitCount) (led : Bool) (s : State) : State :=
  { s with sr := sr, bc := bc, led := led }

theorem afterDraw_withProgress (s : State) (sr : Frame) (bc : BitCount) (led : Bool) :
    (s.withProgress sr bc led).afterDraw = s.afterDraw.withProgress sr bc led := by
  cases hs : s.stimulus with
  | nil => rw [afterDraw_nil s hs, afterDraw_nil (s.withProgress sr bc led) hs]; rfl
  | cons e es => rw [afterDraw_cons s e es hs, afterDraw_cons (s.withProgress sr bc led) e es hs]; rfl

/-- 40_sampler.md section 2: a `clk` neither reads nor writes the frame in progress. -/
theorem clocked_withProgress (s : State) (r : Bool) (sr : Frame) (bc : BitCount) (led : Bool) :
    (s.withProgress sr bc led).clocked r = (s.clocked r).withProgress sr bc led := by
  generalize ht : s.clocked r = t
  cases clocked_cases ht with
  | take _ hr hp hn => exact clocked_take hr hp hn
  | mods hr hp => exact clocked_mods hr hp
  | keydn hr hp => exact clocked_keydn hr hp
  | keyup hr hp => exact clocked_keyup hr hp
  | unchanged _ h =>
    obtain hr | hq | ⟨hp, rfl⟩ := h
    · exact clocked_in_reset hr
    · obtain ⟨hp, hn⟩ := quiescent_iff.mp hq
      exact clocked_poll hp hn
    · exact clocked_hold hp

/-- A shift writes the frame in progress alone (R66). -/
theorem shiftIn_eq_withProgress (s : State) (d : BitVec 1) :
    s.shiftIn d = s.withProgress (shifted s.sr d) (s.bc + 1) (ledAfterShift s.bc s.led) := rfl

/-- Settles O50: the drawn state's `clk` does not see the frame in progress. -/
theorem processorBlindToFrameInProgress : Obligations.ProcessorBlindToFrameInProgress := by
  intro s t sr bc led r he hstep
  have hevent : (s.withProgress sr bc led).nextEvent = .clk r := he
  have hblind : step (s.withProgress sr bc led) = .next (t.withProgress sr bc led) := by
    rw [step_eq_react, hevent, afterDraw_withProgress, eq_react_of_step hstep, he]
    exact congrArg Host.Outcome.next (clocked_withProgress _ r sr bc led)
  exact hblind

/-- Settles O51: the shift writes the frame in progress alone, which the `clk` neither reads nor writes. -/
theorem shiftingEdgeCommutesWithClock : Obligations.ShiftingEdgeCommutesWithClock := by
  intro s d r hbc
  refine ⟨_, stepAll_pair _ _ s, (stepAll_pair _ _ s).trans (congrArg Host.Outcome.next ?_)⟩
  have hsame := clocked_sameSampler s r
  simp only [react_clk]
  cases hr : s.rst with
  | true => simp [clocked_in_reset hr, State.react, hr]
  | false =>
    rw [react_kbdFall d (hsame.rst.trans hr), react_kbdFall d hr, sample_shift (hsame.bc ▸ hbc), sample_shift hbc,
      shiftIn_eq_withProgress, shiftIn_eq_withProgress s, clocked_withProgress, hsame.sr, hsame.bc, hsame.led]

end Sys2Proof.Machine

/-! ## The Sampler: its frame, and runs of edges (40_sampler.md) -/

namespace Sys2Proof.Machine

/-- Settles O7: EDGE loses its bit or is the Sampler's step, which below nine bits leaves the cell. -/
theorem edgeFrame : Obligations.EdgeFrame := by
  intro s t d h
  cases hr : s.rst with
  | true =>
    rw [exec_edge_in_reset d hr] at h
    cases h
    exact ⟨rfl, rfl, rfl, rfl, rfl, hr, rfl, rfl, rfl, rfl, rfl, rfl, fun _ => ⟨rfl, rfl⟩⟩
  | false =>
    rw [exec_edge_running d hr] at h
    cases h
    have hcell (hbc : s.bc.val < 9) : (s.sample d).hcFrame = s.hcFrame ∧ (s.sample d).hcCount = s.hcCount := by
      rw [sample_shift hbc]
      exact ⟨rfl, rfl⟩
    simpa [hr, sample_stimulus] using hcell

/-- Settles O8: only the completing step and the rise of `rst` reach the cell. -/
theorem cellChangesOnlyByPublish : Obligations.CellChangesOnlyByPublish := by
  intro s t h
  cases step_cases h with
  | resetHigh he => exact .inr (.inr ⟨he, rfl, rfl⟩)
  | edge d he hr =>
    by_cases hbc : s.bc.val < 9
    · rw [sample_shift (by simpa using hbc)]
      exact .inl ⟨by simp, by simp⟩
    · have hnine : s.bc.val = 9 := by omega
      rw [sample_complete (by simpa using hnine)]
      exact .inr (.inl ⟨d, he, hr, hnine, by simp [shifted], by simp [nextCount]⟩)
  | rise | resetLow | heldEdge | heldClock | poll | takePress | takeRelease | hold | emitMods | emitKeydn | emitKeyup =>
    exact .inl ⟨by simp, by simp⟩

/-- R66: the bits of a shifted frame register. -/
theorem shifted_getLsbD (sr : Frame) (d : BitVec 1) (i : Nat) :
    (shifted sr d).getLsbD i = if i = 0 then d.getLsbD 0 else decide (i < 10) && sr.getLsbD (i - 1) := by
  cases i with
  | zero => simp [shifted]
  | succ i => simp [shifted]

/-- R36, R66: the ten bits of a frame, highest first, push out whatever the frame register held. -/
theorem foldl_shifted_frame (sr f : Frame) :
    ([9, 8, 7, 6, 5, 4, 3, 2, 1, 0].map fun n => f.extractLsb' n 1).foldl shifted sr = f := by
  apply BitVec.eq_of_getLsbD_eq
  intro i hi
  simp only [List.map_cons, List.map_nil, List.foldl_cons, List.foldl_nil, shifted_getLsbD,
    BitVec.getLsbD_extractLsb']
  interval_cases i <;> simp

/-- R66: a run of edges that leaves the frame short of its tenth bit moves the frame in progress alone: it shifts the
bits in and counts them, and `led` is 1 once a first bit has come. -/
theorem run_shifting_edges {s : State} {bits : List (BitVec 1)} {rest : List Event} (hr : s.rst = false)
    (hroom : s.bc.val + bits.length ≤ 9) (hs : s.stimulus = bits.map Event.kbdFall ++ rest) :
    ∃ bc led, Host.Core.run Sys2Proof.core bits.length s =
        .next (State.withProgress (bits.foldl shifted s.sr) bc led { s with stimulus := rest }) ∧
      bc.val = s.bc.val + bits.length ∧ (s.led = true ∨ s.bc.val = 0 ∧ bits ≠ [] → led = true) := by
  induction bits generalizing s with
  | nil =>
    have hdone : { s with stimulus := rest } = s := by rw [← show s.stimulus = rest from hs]
    exact ⟨s.bc, s.led, congrArg Host.Outcome.next hdone.symm, rfl, by simp⟩
  | cons d ds ih =>
    rw [List.length_cons] at hroom
    have hbc : s.bc.val < 9 := by omega
    have hstep := (step_edge_of_stimulus hr hs).trans (congrArg _ (sample_shift hbc))
    have hcount : (State.shiftIn d { s with stimulus := ds.map Event.kbdFall ++ rest }).bc.val = s.bc.val + 1 :=
      shiftIn_bc_val hbc
    obtain ⟨bc, led, hrun, hval, hled⟩ :=
      ih (s := State.shiftIn d { s with stimulus := ds.map Event.kbdFall ++ rest }) hr (by rw [hcount]; omega) rfl
    refine ⟨bc, led, (run_succ hstep).trans hrun, ?_, fun hfirst => hled (.inl ?_)⟩
    · rw [hval, hcount, List.length_cons]
      omega
    · obtain hs | ⟨hz, -⟩ := hfirst
      · simp [ledAfterShift, hs]
      · simp [ledAfterShift, hz]

/-- Settles O6: the bits of the run are shifted in, and the first of them raises `led`. -/
theorem partialFrameHoldsLedHigh : Obligations.PartialFrameHoldsLedHigh := by
  intro s bits rest hr hbc hone hnine hs
  obtain ⟨bc, led, hrun, hval, hled⟩ := run_shifting_edges hr (by omega) hs
  have hbits : bits ≠ [] := List.ne_nil_of_length_pos hone
  exact ⟨_, hrun, hval.trans (by rw [hbc, Nat.zero_add]), hled (.inr ⟨hbc, hbits⟩), rfl, rfl, rfl⟩

/-- R67: the step on a placed tenth edge. -/
theorem step_tenth_edge_of_stimulus {s : State} {d : BitVec 1} {es : List Event} (hr : s.rst = false)
    (hbc : s.bc.val = 9) (hs : s.stimulus = .kbdFall d :: es) :
    step s = .next
      { s with
        hcFrame := shifted s.sr d, hcCount := nextCount s.cfg s.hcCount, sr := 0, bc := 0, led := false
        stimulus := es } :=
  (step_edge_of_stimulus hr hs).trans (congrArg Host.Outcome.next (sample_complete hbc))

/-- Settles O5: nine edges shift, and the tenth completes the frame of all ten bits. -/
theorem tenEdgesPublishOneFrame : Obligations.TenEdgesPublishOneFrame := by
  intro s f rest hr hbc hs
  obtain ⟨bc, led, hrun, hval, -⟩ := run_shifting_edges
    (bits := [9, 8, 7, 6, 5, 4, 3, 2, 1].map fun n => f.extractLsb' n 1)
    (rest := .kbdFall (f.extractLsb' 0 1) :: rest) hr (by simp [hbc]) hs
  have hnine : bc.val = 9 := by simpa [hbc] using hval
  have hframe : shifted (([9, 8, 7, 6, 5, 4, 3, 2, 1].map fun n => f.extractLsb' n 1).foldl shifted s.sr)
      (f.extractLsb' 0 1) = f := foldl_shifted_frame s.sr f
  refine (run_add (m := 9) (n := 1) hrun).trans
    ((run_succ (step_tenth_edge_of_stimulus (by exact hr) (by exact hnine) (by rfl))).trans ?_)
  simp only [run_zero, State.withProgress, hframe]
  rfl

end Sys2Proof.Machine

/-! ## The handoff cell and the tables (20_memory.md) -/

namespace Sys2Proof.Machine

/-- R20: with at least one counter bit a count in range is not its own successor. -/
theorem nextCount_ne {c : Config} {n : Nat} (h : n < 2 ^ c.countW) : nextCount c n ≠ n := by
  have htwo : 2 ≤ 2 ^ c.countW := Nat.le_self_pow (Nat.succ_ne_zero _) 2
  unfold nextCount
  obtain hlast | hlast : n + 1 = 2 ^ c.countW ∨ n + 1 < 2 ^ c.countW := by omega
  · rw [hlast, Nat.mod_self]; omega
  · rw [Nat.mod_eq_of_lt hlast]; omega

/-- R40: publishes in a row leave the last frame and advance the count by their number. -/
theorem foldl_publish (fs : List Frame) {s : State} (h : s.hcCount < 2 ^ s.cfg.countW) :
    fs.foldl (fun v f => v.publish f) s =
      { s with hcFrame := fs.getLastD s.hcFrame, hcCount := (s.hcCount + fs.length) % 2 ^ s.cfg.countW } := by
  induction fs generalizing s with
  | nil => simp [Nat.mod_eq_of_lt h]
  | cons f fs ih =>
    rw [List.foldl_cons, ih (nextCount_lt _ _), List.getLastD_cons]
    simp [State.publish, nextCount, Nat.add_assoc, Nat.add_comm 1]

/-- A count in range stands after `n` more exactly when the range divides `n`. -/
theorem add_mod_eq_self_iff {c n m : Nat} (h : c < m) : (c + n) % m = c ↔ m ∣ n := by
  conv_lhs => rhs; rw [← Nat.mod_eq_of_lt h]
  exact Nat.add_modEq_left_iff

/-- Settles O9: the count has advanced by the number of publishes. -/
theorem publishesAliasModuloCountWidth : Obligations.PublishesAliasModuloCountWidth := by
  intro s fs hfits hseen
  have hsame := add_mod_eq_self_iff (n := fs.length) hfits
  rw [foldl_publish fs hfits]
  refine ⟨rfl, ?_, fun hdvd hr hp => exec_poll_waiting hr hp ((hsame.mpr hdvd).trans hseen)⟩
  rw [newFrame_iff, ← hsame, hseen]

/-- Settles O57: a snapshot of the older cell is the only one that leaves the published frame pending, and the two-read
pattern leaves it pending because the count has moved. -/
theorem refiningHandoffTakesFrameOnce : Obligations.RefiningHandoffTakesFrameOnce := by
  intro s f m k
  refine ⟨fun impl himpl hnew => ?_, fun hfits => ⟨rfl, newFrame_iff.mpr (nextCount_ne hfits), rfl⟩⟩
  obtain hold | hnow := himpl s (s.publish f)
  · exact hold
  · rw [hnow] at hnew
    exact absurd rfl (newFrame_iff.mp hnew)

/-- R78: a scan code has bit 0 clear, so an odd key is not one. -/
theorem odd_ne_scanCode {key : ScanCode} (f : Frame) (h : key.getLsbD 0 = true) : key ≠ scanCode f := by
  rintro rfl
  simp [scanCode] at h

theorem modLookup_insert_of_ne {key sc : ScanCode} (hkey : key ≠ sc) (pre post : List (ScanCode × ModIndex))
    (i : ModIndex) : modLookup (pre ++ (key, i) :: post) sc = modLookup (pre ++ post) sc := by
  induction pre with
  | nil => exact if_neg hkey
  | cons e pre ih => rw [List.cons_append, List.cons_append, modLookup_cons, modLookup_cons, ih]

theorem regLookup_insert_of_ne {key sc : ScanCode} (hkey : key ≠ sc) (pre post : List (ScanCode × Keycode))
    (k : Keycode) : regLookup (pre ++ (key, k) :: post) sc = regLookup (pre ++ post) sc := by
  induction pre with
  | nil => exact if_neg hkey
  | cons e pre ih => rw [List.cons_append, List.cons_append, regLookup_cons, regLookup_cons, ih]

/-- Settles O13: the lookups pass over the odd key wherever it stands. -/
theorem oddKeysNeverMatch : Obligations.OddKeysNeverMatch :=
  fun f _ hodd => ⟨modLookup_insert_of_ne (odd_ne_scanCode f hodd), regLookup_insert_of_ne (odd_ne_scanCode f hodd)⟩

/-- A scan code that ModLookup finds is a key of the table (R45). -/
theorem exists_mem_of_modLookup {sc : ScanCode} {table : List (ScanCode × ModIndex)} {i : ModIndex}
    (h : modLookup table sc = some i) : ∃ e ∈ table, e.1 = sc := by
  by_contra hnone
  rw [modLookup_eq_none_of_forall_ne fun e he hkey => hnone ⟨e, he, hkey⟩] at h
  cases h

theorem wfDisjoint_iff {c : Config} :
    wfDisjoint c = true ↔ ∀ r ∈ c.regTable, ∀ m ∈ c.modTable, r.1 ≠ m.1 := by
  simp [wfDisjoint]

/-- Settles O14: the modifier's key is in no entry of the regular table. -/
theorem disjointTablesSeparateKeys : Obligations.DisjointTablesSeparateKeys := by
  intro c sc i hdisj hfound
  obtain ⟨m, hm, rfl⟩ := exists_mem_of_modLookup hfound
  exact regLookup_eq_noKey_of_forall_ne fun r hr => wfDisjoint_iff.mp hdisj r hr m hm

/-- R47: a table with an index of 8 or more has no typed form, and any other has one, with the same entries. -/
theorem typedModTable_eq_none_iff {table : List (ScanCode × Nat)} :
    typedModTable table = none ↔ ∃ e ∈ table, 8 ≤ e.2 := by
  induction table with
  | nil => simp [typedModTable]
  | cons e rest ih =>
    obtain ⟨key, i⟩ := e
    by_cases hi : i < 8
    · have : ¬ 8 ≤ i := by omega
      simp [typedModTable, hi, ih, this]
    · have : 8 ≤ i := by omega
      simp [typedModTable, hi, this]

theorem map_of_typedModTable {table : List (ScanCode × Nat)} {typed : List (ScanCode × ModIndex)}
    (h : typedModTable table = some typed) : typed.map (fun e => (e.1, e.2.val)) = table := by
  induction table generalizing typed with
  | nil => cases h; rfl
  | cons e rest ih =>
    obtain ⟨key, i⟩ := e
    by_cases hi : i < 8
    · obtain ⟨tail, htail, rfl⟩ : ∃ tail, typedModTable rest = some tail ∧ (key, ⟨i, hi⟩) :: tail = typed := by
        simpa [typedModTable, hi] using h
      simp [ih htail]
    · simp [typedModTable, hi] at h

/-- The configuration a raw one starts with, its modifier table typed. -/
def RawConfig.typed (r : RawConfig) (table : List (ScanCode × ModIndex)) : Config where
  topCountBit := r.countW - 1
  regTable := r.regTable
  modTable := table
  hostMods := r.hostMods
  hostKey := r.hostKey

section Boot

variable {r : RawConfig}

theorem boot_width_zero (hw : r.countW = 0) : boot r = .refused .countWidthZero := if_pos hw

theorem boot_untyped (hw : r.countW ≠ 0) (h : typedModTable r.modTable = none) :
    boot r = .refused .modIndexTooLarge := by
  simp [boot, hw, h]

theorem boot_typed {table : List (ScanCode × ModIndex)} (hw : r.countW ≠ 0)
    (h : typedModTable r.modTable = some table) : boot r = .next (State.resetWith (r.typed table)) := by
  simp [boot, hw, h, RawConfig.typed]

end Boot

/-- Settles O15: boot's three branches are the width 0, a table without a typed form, and the rest. -/
theorem bootRefusesBadConfigurations : Obligations.BootRefusesBadConfigurations := by
  intro r
  by_cases hw : r.countW = 0
  · simp [boot_width_zero hw, hw]
  · have hindex := typedModTable_eq_none_iff (table := r.modTable)
    cases htyped : typedModTable r.modTable with
    | none =>
      obtain ⟨e, he, hlarge⟩ := hindex.mp htyped
      rw [boot_untyped hw htyped]
      exact ⟨by simp [hw], ⟨fun _ => ⟨hw, e, he, hlarge⟩, fun _ => rfl⟩,
        fun _ hgood => absurd (hgood e he) (by omega)⟩
    | some table =>
      have hgood : ¬ ∃ e ∈ r.modTable, 8 ≤ e.2 := by simp [← hindex, htyped]
      rw [boot_typed hw htyped]
      exact ⟨by simp [hw], ⟨nofun, fun h => absurd h.2 hgood⟩, fun _ _ =>
        ⟨r.typed table, rfl, Nat.sub_add_cancel (Nat.pos_of_ne_zero hw), rfl, map_of_typedModTable htyped, rfl, rfl⟩⟩

end Sys2Proof.Machine

/-! ## Frames and refusals of the operations (41_processor.md, 42_transport.md, 70_reset_and_hazards.md) -/

namespace Sys2Proof.Machine

/-- Log 6: in reset a Processor operation changes nothing, whatever it is. -/
theorem processorStep_in_reset {s after : State} {selected : Bool} (hr : s.rst = true) :
    processorStep s selected after = .next s := if_pos hr

/-- Log 6: outside reset a Processor operation is refused exactly where its condition fails. -/
theorem processorStep_refused_iff {s after : State} {selected : Bool} (hr : s.rst = false) :
    processorStep s selected after = .refused .notSelected ↔ ¬ selected = true := by
  cases hs : selected with
  | true => simp [processorStep_selected hr rfl]
  | false => simp [processorStep_refused hr rfl]

/-- Settles O24: each of the operations is a Processor step. -/
theorem noProcessorStepInReset : Obligations.NoProcessorStepInReset := by
  intro s scHi p hr
  have hheld {selected : Bool} {after : State} : processorStep s selected after = .next s := processorStep_in_reset hr
  exact ⟨hheld, hheld, hheld, hheld, hheld, hheld, hheld⟩

/-- Settles O25: each operation's condition is that of its Processor step. -/
theorem unselectedOperationsRefused : Obligations.UnselectedOperationsRefused := by
  intro s scHi p hr
  have hrefused {selected : Bool} {after : State} {condition : Prop} (h : selected = true ↔ condition) :
      processorStep s selected after = .refused .notSelected ↔ ¬ condition :=
    (processorStep_refused_iff hr).trans (not_congr h)
  exact ⟨hrefused (by simp [State.newFrame, State.snapshot]), hrefused takeSelected_iff, hrefused takeSelected_iff,
    hrefused (by simp), hrefused (by simp), hrefused (by simp), hrefused (by simp)⟩

/-- What a Processor operation answers, where it answers a next state: the same state, a take, or an emission. -/
inductive ProcessorEffect (s : State) : State → Prop where
  | same : ProcessorEffect s s
  | taken (c : Nat) (m : ModSet) (k : Keycode) : ProcessorEffect s (s.taken c m k)
  | emit (w : CmdWord) (p : Phase) : ProcessorEffect s (s.emit w p)

theorem processorStep_effect {s after t : State} {selected : Bool} (hafter : ProcessorEffect s after)
    (h : processorStep s selected after = .next t) : ProcessorEffect s t := by
  obtain ⟨-, rfl⟩ | ⟨-, -, rfl⟩ := processorStep_next h
  · exact .same
  · exact hafter

/-- R73, R105: a Processor operation reaches the registers of its own domain and the trace, by a take or an emission. -/
theorem exec_processor_effect {s t : State} {scHi : BitVec 9} {p : Phase} {i : Instr}
    (hi : i ∈ [.poll, .takePress scHi, .takeRelease scHi, .emitMods, .emitKeydn, .emitKeyup, .hold p])
    (h : exec i s = .next t) : ProcessorEffect s t := by
  simp only [List.mem_cons, List.not_mem_nil, or_false] at hi
  obtain rfl | rfl | rfl | rfl | rfl | rfl | rfl := hi
  · exact processorStep_effect .same h
  · exact processorStep_effect (.taken _ _ _) h
  · exact processorStep_effect (.taken _ _ _) h
  · exact processorStep_effect (.emit _ _) h
  · exact processorStep_effect (.emit _ _) h
  · exact processorStep_effect (.emit _ _) h
  · exact processorStep_effect .same h

/-- Settles O26: neither a take nor an emission reaches these fields. -/
theorem processorFrame : Obligations.ProcessorFrame := by
  intro s t scHi p i hi h
  cases exec_processor_effect hi h with
  | same | taken | emit => exact ⟨rfl, rfl, rfl, rfl, rfl, rfl, rfl, rfl, rfl, rfl, rfl, rfl⟩

/-- A Processor step leaves whatever its effect leaves, and in reset it leaves everything. -/
theorem processorStep_keeps {α : Type} (field : State → α) {s after t : State} {selected : Bool}
    (hafter : field after = field s) (h : processorStep s selected after = .next t) : field t = field s := by
  obtain ⟨-, rfl⟩ | ⟨-, -, rfl⟩ := processorStep_next h
  · rfl
  · exact hafter

/-- Settles O27: POLL and HOLD are Processor steps to the same state, a take leaves the trace, and an emission leaves what
a take has written. -/
theorem processorDomainFrame : Obligations.ProcessorDomainFrame := by
  intro s t scHi p
  simp only [List.forall_mem_cons, List.not_mem_nil, false_implies, implies_true, and_true]
  have hsame {selected : Bool} (h : processorStep s selected s = .next t) : t = s := processorStep_keeps id rfl h
  have htrace {selected : Bool} {c m k} (h : processorStep s selected (s.taken c m k) = .next t) : t.trace = s.trace :=
    processorStep_keeps (after := s.taken c m k) State.trace rfl h
  have hdomain {selected : Bool} {w p} (h : processorStep s selected (s.emit w p) = .next t) :
      t.lastSeen = s.lastSeen ∧ t.mods = s.mods ∧ t.pendKey = s.pendKey :=
    ⟨processorStep_keeps (after := s.emit w p) State.lastSeen rfl h,
      processorStep_keeps (after := s.emit w p) State.mods rfl h,
      processorStep_keeps (after := s.emit w p) State.pendKey rfl h⟩
  exact ⟨⟨hsame, hsame⟩, ⟨htrace, htrace⟩, hdomain, hdomain, hdomain⟩

/-- Settles O29: each command transmits, with the other slot as it stands. -/
theorem transportFrame : Obligations.TransportFrame := by
  intro s t m k i hi h
  simp only [List.mem_cons, List.not_mem_nil, or_false] at hi
  obtain rfl | rfl | rfl := hi
  all_goals
    cases h
    exact ⟨rfl, rfl, rfl, rfl, rfl, rfl, rfl, rfl, rfl, rfl, rfl, rfl, rfl, rfl, by simp, by simp⟩

/-- Settles O34: RESET writes the nine registers alone. -/
theorem resetFrame : Obligations.ResetFrame := by
  intro s t h
  obtain rfl := Host.Outcome.next.inj ((exec_reset s).symm.trans h)
  exact ⟨rfl, rfl, rfl, rfl, rfl, rfl, rfl, rfl⟩

theorem txWord_idle {s : State} (hp : s.phase = .idle) : s.txWord = 0x100#9 := by
  simp [State.txWord, State.txCmd, State.txArg, hp, cmdWord]

/-- Settles O30: the word offered in each phase, as bits. -/
theorem commandPortOutputs : Obligations.CommandPortOutputs := by
  intro s
  refine ⟨by cases hp : s.phase <;> simp [State.txValid, hp], rfl, txWord_idle, fun hp => ?_, fun hp => ?_,
    fun hp => ?_⟩
  · rw [txWord_mods hp, setModsWord_eq]
  · rw [txWord_keydn hp, setKeyWord_eq]
  · rw [txWord_keyup hp, setKeyWord_eq]
    rfl

/-! ## What every step does (30_encoding.md section 2, 42_transport.md) -/

/-- One presented value runs exactly its operation, whatever that answers. -/
theorem runPresented_decoded {v : Encoded} {i : Instr} (s : State) (hd : decode v = .ok i) :
    runPresented [v] s = exec i s := by
  simp only [runPresented, hd]
  cases exec i s <;> rfl

/-- Settles O39: the step is the run of what is presented. -/
theorem stepRunsDecodedOperation : Obligations.StepRunsDecodedOperation := by
  intro s
  refine ⟨fun hnone => ?_, fun v i hv hd => ?_⟩
  · rw [step, hnone, runPresented_nil]
  · rw [step, hv, runPresented_decoded _ hd]

/-- Settles O47: of the updates a step is made of, none reaches the configuration. -/
theorem configurationNeverChanges : Obligations.ConfigurationNeverChanges := by
  intro s t h
  cases step_cases h with
  | rise | resetHigh | resetLow | heldEdge | heldClock | edge | poll | takePress | takeRelease | hold | emitMods
  | emitKeydn | emitKeyup => simp

/-- Settles O48: the takes and RESET are the only updates of a step that reach `mods`. -/
theorem modsWrittenOnlyByTakeOrReset : Obligations.ModsWrittenOnlyByTakeOrReset := by
  intro s t h hmods
  cases step_cases h with
  | resetHigh he => exact .inl he
  | takePress r he hr hp hn | takeRelease r he hr hp hn => exact .inr ⟨r, he, hr, hp, hn, rfl, rfl⟩
  | rise | resetLow | heldEdge | heldClock | edge | poll | hold | emitMods | emitKeydn | emitKeyup =>
    exact absurd (by simp) hmods

/-- Settles O58: an accepted offer is transmitted in its own step, and any other step leaves the transport. -/
theorem reportsFollowAcceptedOffers : Obligations.ReportsFollowAcceptedOffers := by
  intro s t h
  refine ⟨fun ⟨he, hr, hv⟩ => ?_, fun hno => ?_⟩
  · obtain ⟨p, m, k, -, hstep⟩ := step_accepts_offer he hr hv
    obtain rfl := Host.Outcome.next.inj (hstep.symm.trans h)
    simp
  · have hkept := step_received_of_not_accepted h hno
    simp only [State.received, Prod.mk.injEq] at hkept
    exact hkept.2

/-- R97, R101: a report and the command of the word it offers, one after the other. -/
theorem exec_report_then_command {s : State} (hr : s.rst = false) (hp : s.phase ≠ .idle) :
    ∃ p m k, exec (decodePhase s.phase true) s = .next (s.emit s.txWord p) ∧
      exec (decodeCmd s.txWord) (s.emit s.txWord p) = .next ((s.emit s.txWord p).transmit m k) := by
  cases hq : s.phase with
  | idle => exact absurd hq hp
  | mods =>
    rw [txWord_mods hq, decodeCmd_setMods]
    exact ⟨_, _, _, exec_emitMods_due hr hq, exec_setMods _ _⟩
  | keydn =>
    rw [txWord_keydn hq, decodeCmd_setKey]
    refine ⟨.keyup, s.ms, s.pendKey, exec_emitKeydn_due hr hq, ?_⟩
    split
    · rw [‹s.pendKey = noKey›]
      exact exec_setKeyNone _
    · exact exec_setKey _ _
  | keyup =>
    rw [txWord_keyup hq, decodeCmd_setKey, if_pos rfl]
    exact ⟨_, _, _, exec_emitKeyup_due hr hq, exec_setKeyNone _⟩

theorem ready_of_clk {s : State} {r : Bool} (he : s.nextEvent = .clk r) : s.ready = s.afterDraw := by
  rw [State.ready, he, applyPins_clk]

/-- Settles O40: the accepting step presents the phase and the word offered, and runs them in this order. -/
theorem acceptedWordReachesTransport : Obligations.AcceptedWordReachesTransport := by
  intro s he hr hp
  have hoffer := afterDraw_sameOffer s
  have hdrawn : s.afterDraw.phase ≠ .idle := hoffer.phase.symm ▸ hp
  have hdecode : decode (.phase s.phase.bits true) = .ok (decodePhase s.phase true) := by simp [decode]
  obtain ⟨p, m, k, hreport, hcommand⟩ := exec_report_then_command (hoffer.rst.trans hr) hdrawn
  rw [hoffer.phase, hoffer.txWord] at hreport
  rw [hoffer.txWord] at hcommand
  refine ⟨_, _, _, hdecode, (ready_of_clk he).symm ▸ hreport, hcommand, ?_, by simp⟩
  rw [step_clk he hr, State.clockPresents, if_neg hdrawn, if_pos rfl, hoffer.phase, hoffer.txWord,
    runPresented_cons hdecode hreport]
  exact runPresented_single rfl hcommand

/-- R58: a word with bit 8 set carries `none` or a keycode of the regular table. -/
def KnowsKeyOf (c : Config) (w : CmdWord) : Prop :=
  cmdBit w = true → cmdArg w = noKey ∨ ∃ e ∈ c.regTable, e.2 = cmdArg w

/-- The word on the command port carries no other key, in every phase. -/
theorem State.Inv.knowsKeyOf_txWord {s : State} (h : s.Inv) : KnowsKeyOf s.cfg s.txWord := by
  cases hp : s.phase with
  | idle => exact fun _ => .inl (by rw [txWord_idle hp]; decide)
  | mods => rw [txWord_mods hp]; exact fun hbit => by simp [setModsWord] at hbit
  | keydn => rw [txWord_keydn hp]; exact fun _ => by simpa [setKeyWord] using h.key_known
  | keyup => rw [txWord_keyup hp]; exact fun _ => .inl (by decide)

/-- Settles O46: a step appends nothing, or the word offered. -/
theorem stepKeepsKeyWordsFromTable : Obligations.StepKeepsKeyWordsFromTable := by
  intro s t hinv h
  obtain ⟨haccept, hother⟩ := traceGrowsByAcceptedOffers s t h
  have hkeeps : (∀ w ∈ s.trace, KnowsKeyOf s.cfg w) → ∀ w ∈ t.trace, KnowsKeyOf t.cfg w := by
    rw [configurationNeverChanges s t h]
    intro hknown w hw
    by_cases haccepted : s.nextEvent = .clk true ∧ s.rst = false ∧ s.txValid = true
    · rw [(haccept haccepted).1, List.mem_append, List.mem_singleton] at hw
      obtain hw | rfl := hw
      · exact hknown w hw
      · exact hinv.knowsKeyOf_txWord
    · exact hknown w (hother haccepted ▸ hw)
  exact hkeeps

end Sys2Proof.Machine

/-! ## A frame is taken once, and the two orders of a publish and a snapshot (20_memory.md sections 3 and 4) -/

namespace Sys2Proof.Machine

theorem react_complete {s : State} {d : BitVec 1} (hr : s.rst = false) (hbc : s.bc.val = 9) :
    s.react (.kbdFall d) = s.completeFrame d :=
  (react_kbdFall d hr).trans (sample_complete hbc)

/-- HO1, edge first: the `clk` takes the frame just published, or polls where the count has wrapped to `last_seen`. -/
theorem complete_then_clock {s : State} (d : BitVec 1) (r : Bool) (hr : s.rst = false) (hp : s.phase = .idle) :
    let c := nextCount s.cfg s.hcCount
    let t := (s.completeFrame d).clocked r
    t.hcFrame = shifted s.sr d ∧ t.hcCount = c ∧ t.lastSeen = c ∧
      if c = s.lastSeen then t.phase = .idle ∧ t.mods = s.mods ∧ t.pendKey = s.pendKey
      else t.phase = .mods ∧ t.mods = modsAfterTake s.cfg (shifted s.sr d) s.mods ∧
        t.pendKey = keyAfterTake s.cfg (shifted s.sr d) := by
  intro c t
  by_cases hc : c = s.lastSeen
  · have ht : t = s.completeFrame d := clocked_poll hp hc
    rw [ht, if_pos hc]
    exact ⟨rfl, rfl, hc.symm, hp, rfl, rfl⟩
  · have ht : t = (s.completeFrame d).taken _ _ _ := clocked_take hr hp hc
    rw [ht, if_neg hc]
    exact ⟨rfl, rfl, rfl, rfl, rfl, rfl⟩

/-- HO1, `clk` first: it takes the older frame where that was pending, and polls where not. -/
theorem clock_sees_old_cell {s : State} (r : Bool) (hr : s.rst = false) (hp : s.phase = .idle) :
    (s.clocked r).lastSeen = s.hcCount ∧
      if s.hcCount = s.lastSeen then
        (s.clocked r).phase = .idle ∧ (s.clocked r).mods = s.mods ∧ (s.clocked r).pendKey = s.pendKey
      else (s.clocked r).phase = .mods ∧ (s.clocked r).mods = modsAfterTake s.cfg s.hcFrame s.mods ∧
        (s.clocked r).pendKey = keyAfterTake s.cfg s.hcFrame := by
  by_cases hn : s.hcCount = s.lastSeen
  · rw [clocked_poll hp hn, if_pos hn]
    exact ⟨hn.symm, hp, rfl, rfl⟩
  · rw [clocked_take hr hp hn, if_neg hn]
    exact ⟨rfl, rfl, rfl, rfl⟩

theorem clocked_cfg (s : State) (r : Bool) : (s.clocked r).cfg = s.cfg := by
  generalize ht : s.clocked r = t
  cases clocked_cases ht with
  | unchanged | take | mods | keydn | keyup => rfl

/-- Settles O11: both orders, from the completing step and the `clk` taken one after the other. -/
theorem publishAndSnapshotAreOrdered : Obligations.PublishAndSnapshotAreOrdered := by
  rintro s d r _ _ hr hp hbc hfits rfl rfl
  have hne : nextCount s.cfg s.hcCount ≠ s.hcCount := nextCount_ne hfits
  refine ⟨hne, ⟨_, stepAll_pair _ _ s, ?_⟩, ⟨_, stepAll_pair _ _ s, ?_⟩⟩
  · rw [react_complete hr hbc]
    exact complete_then_clock d r hr hp
  · have hsame := clocked_sameSampler s r
    obtain ⟨hseen, htaken⟩ := clock_sees_old_cell r hr hp
    have hcount : nextCount (s.clocked r).cfg (s.clocked r).hcCount = nextCount s.cfg s.hcCount := by
      rw [clocked_cfg, hsame.hcCount]
    rw [react_clk, react_complete (hsame.rst.trans hr) (hsame.bc ▸ hbc)]
    refine ⟨congrArg (shifted · d) hsame.sr, hcount, hseen, newFrame_iff.mpr ?_, htaken⟩
    rw [completeFrame_hcCount, completeFrame_lastSeen, hcount, hseen]
    exact hne

/-- `t` holds the cell and what the last take made of it as `s` does, outside reset like `s`. -/
structure State.SameTake (s t : State) : Prop where
  hcFrame : t.hcFrame = s.hcFrame
  hcCount : t.hcCount = s.hcCount
  lastSeen : t.lastSeen = s.lastSeen
  mods : t.mods = s.mods
  pendKey : t.pendKey = s.pendKey
  rst : t.rst = s.rst

theorem State.SameTake.trans {s t u : State} (h : s.SameTake t) (h' : t.SameTake u) : s.SameTake u :=
  ⟨h'.hcFrame.trans h.hcFrame, h'.hcCount.trans h.hcCount, h'.lastSeen.trans h.lastSeen, h'.mods.trans h.mods,
    h'.pendKey.trans h.pendKey, h'.rst.trans h.rst⟩

/-- With no frame pending, a `clk` takes none: a report is all it can do. -/
theorem clocked_sameTake {s : State} (r : Bool) (hseen : s.hcCount = s.lastSeen) : s.SameTake (s.clocked r) := by
  generalize ht : s.clocked r = t
  cases clocked_cases ht with
  | take _ _ _ hn => exact absurd hseen hn
  | unchanged | mods | keydn | keyup => constructor <;> rfl

theorem fallCount_cons (e : Event) (es : List Event) : fallCount (e :: es) = fallCount [e] + fallCount es := by
  simp only [fallCount, ← List.countP_append, List.singleton_append]

/-- With no frame pending and room for the edges to come, every event but the rise of `rst` keeps the pair taken, and an
edge uses up its room. -/
theorem react_sameTake {s : State} {e : Event} (hr : s.rst = false) (hseen : s.hcCount = s.lastSeen)
    (he : e ≠ .rst true) (hroom : s.bc.val + fallCount [e] ≤ 9) :
    s.SameTake (s.react e) ∧ (s.react e).bc.val = s.bc.val + fallCount [e] := by
  cases e with
  | kbdRise => exact ⟨by constructor <;> rfl, rfl⟩
  | clk r => exact ⟨clocked_sameTake r hseen, congrArg Fin.val (clocked_sameSampler s r).bc⟩
  | kbdFall d =>
    have hbc : s.bc.val < 9 := hroom
    rw [react_kbdFall d hr, sample_shift hbc]
    exact ⟨by constructor <;> rfl, shiftIn_bc_val hbc⟩
  | rst level =>
    cases level with
    | true => exact absurd rfl he
    | false =>
      exact ⟨{ hcFrame := rfl, hcCount := rfl, lastSeen := rfl, mods := rfl, pendKey := rfl, rst := hr.symm }, rfl⟩

theorem react_stimulus (s : State) (e : Event) : (s.react e).stimulus = s.stimulus := by
  cases e with
  | kbdRise => rfl
  | rst level => cases level <;> rfl
  | kbdFall d =>
    cases hr : s.rst with
    | true => simp [State.react, hr]
    | false => rw [react_kbdFall d hr, sample_stimulus]
  | clk r =>
    rw [react_clk]
    generalize ht : s.clocked r = t
    cases clocked_cases ht with
    | unchanged | take | mods | keydn | keyup => rfl

/-- 20_memory.md section 4: any run short of the next publish keeps the pair taken. -/
theorem run_sameTake {es rest : List Event} {s : State} (hr : s.rst = false) (hseen : s.hcCount = s.lastSeen)
    (hrise : .rst true ∉ es) (hroom : s.bc.val + fallCount es ≤ 9) (hs : s.stimulus = es ++ rest) :
    ∃ t, Host.Core.run Sys2Proof.core es.length s = .next t ∧ t.stimulus = rest ∧ s.SameTake t := by
  induction es generalizing s with
  | nil => exact ⟨s, rfl, hs, by constructor <;> rfl⟩
  | cons e es ih =>
    obtain ⟨he, hrise⟩ := not_or.mp (List.mem_cons.not.mp hrise)
    rw [fallCount_cons, ← Nat.add_assoc] at hroom
    obtain ⟨hsame, hbc⟩ := react_sameTake (s := { s with stimulus := es ++ rest }) hr hseen (Ne.symm he)
      (Nat.le_of_add_right_le hroom)
    obtain ⟨t, hrun, hrest, htake⟩ := ih (hsame.rst.trans hr)
      (hsame.hcCount.trans (hseen.trans hsame.lastSeen.symm)) hrise (by rw [hbc]; exact hroom) (react_stimulus _ e)
    refine ⟨t, (run_succ (step_of_stimulus hs)).trans hrun, hrest, State.SameTake.trans ?_ htake⟩
    exact ⟨hsame.hcFrame, hsame.hcCount, hsame.lastSeen, hsame.mods, hsame.pendKey, hsame.rst⟩

/-- R76: the step on a placed `clk` that finds a new frame. -/
theorem step_take_of_stimulus {s : State} {r : Bool} {es : List Event} (hs : s.stimulus = .clk r :: es)
    (hr : s.rst = false) (hp : s.phase = .idle) (hn : s.hcCount ≠ s.lastSeen) :
    step s = .next
      { s with
        stimulus := es, lastSeen := s.hcCount, mods := modsAfterTake s.cfg s.hcFrame s.mods
        pendKey := keyAfterTake s.cfg s.hcFrame, phase := .mods } :=
  (step_of_stimulus hs).trans (congrArg Host.Outcome.next (clocked_take hr hp hn))

/-- Settles O10: the take, the run that keeps its pair, and the poll that finds it. -/
theorem takenFrameIsNotTakenAgain : Obligations.TakenFrameIsNotTakenAgain := by
  intro s r es rest hr hp hn hs hrise hroom
  have hstep := step_take_of_stimulus hs hr hp hn
  obtain ⟨u, hrun, hrest, hsame⟩ := run_sameTake (s := { s with
    stimulus := es ++ rest, lastSeen := s.hcCount, mods := modsAfterTake s.cfg s.hcFrame s.mods
    pendKey := keyAfterTake s.cfg s.hcFrame, phase := .mods }) hr rfl hrise hroom rfl
  refine ⟨_, u, hstep, rfl, rfl, rfl, rfl, rfl, rfl, hrun, hsame.hcFrame, hsame.hcCount, hsame.lastSeen, hsame.mods,
    hsame.pendKey, hrest, fun b rest' hidle hnext => ?_⟩
  have hstim : u.stimulus = .clk b :: rest' := hrest.trans hnext
  have hseen : u.hcCount = u.lastSeen := hsame.hcCount.trans hsame.lastSeen.symm
  exact (step_of_stimulus hstim).trans (congrArg Host.Outcome.next (clocked_poll hidle hseen))

end Sys2Proof.Machine

/-! ## The run of one frame, and quiescence (41_processor.md section 3, 70_reset_and_hazards.md section 5) -/

namespace Sys2Proof.Machine

theorem modsAfterTake_press {c : Config} {f : Frame} (hf : relFlag f = false) (m : ModSet) :
    modsAfterTake c f m = modsAfterPress c.modTable (scanCode f) m := by simp [modsAfterTake, hf]

theorem keyAfterTake_press {c : Config} {f : Frame} (hf : relFlag f = false) :
    keyAfterTake c f = regLookup c.regTable (scanCode f) := by simp [keyAfterTake, hf]

/-- R81, R82: a release makes no key due, nor does a press without a keycode. -/
theorem keyAfterTake_eq_noKey {c : Config} {f : Frame}
    (h : relFlag f = true ∨ regLookup c.regTable (scanCode f) = noKey) : keyAfterTake c f = noKey := by
  cases hf : relFlag f with
  | true => simp [keyAfterTake, hf]
  | false => rw [keyAfterTake_press hf]; exact h.resolve_left (by simp [hf])

/-- Settles O52: a take and the three reports of a tap. -/
theorem mappedPressEmitsTap : Obligations.MappedPressEmitsTap := by
  rintro s rest _ _ hr hp hn hf rfl rfl hk hs
  refine (run_succ (n := 3) (step_take_of_stimulus hs hr hp hn)).trans ?_
  rw [modsAfterTake_press hf, keyAfterTake_press hf]
  refine (run_succ (n := 2) (step_emitMods_of_stimulus (by rfl) (by exact hr) (by rfl))).trans ?_
  refine (run_succ (n := 1) (step_emitKeydn_of_stimulus (by rfl) (by exact hr) (by simpa using hk))).trans ?_
  refine (run_succ (n := 0) (step_emitKeyup_of_stimulus (by rfl) (by exact hr) (by rfl))).trans ?_
  simp [setModsWord_eq, setKeyWord_eq]

/-- Settles O53: a take that makes no key due, and the modifier report. -/
theorem otherFramesEmitModifierReportOnly : Obligations.OtherFramesEmitModifierReportOnly := by
  rintro s rest _ hr hp hn hother rfl hs
  refine (run_succ (n := 1) (step_take_of_stimulus hs hr hp hn)).trans ?_
  rw [keyAfterTake_eq_noKey hother]
  refine (run_succ (n := 0) (step_emitMods_of_stimulus (by rfl) (by exact hr) (by rfl))).trans ?_
  simp [setModsWord_eq, modsAfterTake, relFlag]

/-- R139: every event but a publish keeps a quiescent state so. -/
theorem react_quiescent {s : State} {e : Event} (hq : s.quiescent = true) (hbc : ∀ d, e = .kbdFall d → s.bc.val < 9) :
    (s.react e).quiescent = true := by
  cases e with
  | kbdRise => exact hq
  | rst level =>
    cases level with
    | true => rfl
    | false => exact hq
  | clk r =>
    obtain ⟨hp, hn⟩ := quiescent_iff.mp hq
    rwa [react_clk, clocked_poll hp hn]
  | kbdFall d =>
    cases hr : s.rst with
    | true => simpa [State.react, hr] using hq
    | false => rw [react_kbdFall d hr, sample_shift (hbc d rfl)]; exact hq

theorem afterDraw_quiescent (s : State) : s.afterDraw.quiescent = s.quiescent := by simp [State.quiescent]

/-- Settles O54: a `clk` in a quiescent state polls, and no other event but a publish or a take writes a count. -/
theorem quiescentUntilPublish : Obligations.QuiescentUntilPublish := by
  intro s hq
  have hdrawn : s.afterDraw.quiescent = true := (afterDraw_quiescent s).trans hq
  refine ⟨fun r he => ?_, fun t h hbc => ?_⟩
  · obtain ⟨hp, hn⟩ := quiescent_iff.mp hdrawn
    rw [step_eq_react, he, react_clk, clocked_poll hp hn]
  · rw [eq_react_of_step h]
    exact react_quiescent hdrawn (by simpa using hbc)

/-- The reports still to be accepted of the frame in progress, at most. -/
def reportsDue : Phase → Nat
  | .idle => 0
  | .mods => 3
  | .keydn => 2
  | .keyup => 1

/-- The accepted `clk`s to quiescence with no further publish, at most: the reports due, and four for a frame pending
(R61, 70_reset_and_hazards.md section 5). -/
def State.clocksDue (s : State) : Nat := reportsDue s.phase + if s.newFrame then 4 else 0

theorem clocksDue_le_seven (s : State) : s.clocksDue ≤ 7 := by
  unfold State.clocksDue
  have hreports : reportsDue s.phase ≤ 3 := by cases s.phase <;> decide
  split <;> omega

theorem quiescent_of_clocksDue_zero {s : State} (h : s.clocksDue = 0) : s.quiescent = true := by
  obtain ⟨hreports, hframe⟩ := Nat.add_eq_zero_iff.mp h
  have hp : s.phase = .idle := by
    cases hp : s.phase with
    | idle => rfl
    | mods | keydn | keyup => rw [hp] at hreports; cases hreports
  have hn : ¬ s.hcCount ≠ s.lastSeen := fun hn => by
    rw [if_pos (newFrame_iff.mpr hn)] at hframe
    cases hframe
  exact quiescent_iff.mpr ⟨hp, not_not.mp hn⟩

theorem clocksDue_report (s : State) (w : CmdWord) (p : Phase) (m : ModSet) (k : Keycode) :
    ((s.emit w p).transmit m k).clocksDue = reportsDue p + if s.newFrame then 4 else 0 := rfl

theorem clocksDue_taken (s : State) (m : ModSet) (k : Keycode) : (s.taken s.hcCount m k).clocksDue = 3 := by
  simp [State.clocksDue, reportsDue, State.newFrame, State.snapshot]

/-- Short of quiescence every accepted `clk` uses up one of the clocks due, and a hold none. -/
theorem clocked_clocksDue {s : State} (r : Bool) (hr : s.rst = false) (hq : ¬ s.quiescent = true) :
    (s.clocked r).clocksDue + r.toNat ≤ s.clocksDue := by
  generalize ht : s.clocked r = t
  cases clocked_cases ht with
  | unchanged _ h =>
    obtain hrst | hquiet | ⟨-, rfl⟩ := h
    · simp [hr] at hrst
    · exact absurd hquiet hq
    · exact Nat.le_refl _
  | take _ _ hp hn =>
    have hone := r.toNat_le
    rw [clocksDue_taken, State.clocksDue, hp, if_pos (newFrame_iff.mpr hn), reportsDue]
    omega
  | mods _ hp =>
    have hnext : reportsDue (if s.pendKey != noKey then .keydn else .idle) ≤ 2 := by split <;> decide
    rw [clocksDue_report, State.clocksDue, hp, Bool.toNat_true]
    simp only [reportsDue] at hnext ⊢
    omega
  | keydn _ hp =>
    rw [clocksDue_report, State.clocksDue, hp, Bool.toNat_true]
    simp only [reportsDue]
    omega
  | keyup _ hp =>
    rw [clocksDue_report, State.clocksDue, hp, Bool.toNat_true]
    simp only [reportsDue]
    omega

theorem step_uses_clock {s : State} {r : Bool} {es : List Event} (hr : s.rst = false) (hq : ¬ s.quiescent = true)
    (hs : s.stimulus = .clk r :: es) :
    ∃ t, step s = .next t ∧ t.rst = false ∧ t.stimulus = es ∧ t.clocksDue + r.toNat ≤ s.clocksDue :=
  ⟨_, step_of_stimulus hs, (clocked_sameSampler _ r).rst.trans hr, react_stimulus _ (.clk r),
    clocked_clocksDue (s := { s with stimulus := es }) r hr hq⟩

/-- R140: clocks of which as many are accepted as are due reach quiescence, by induction on the clocks. -/
theorem run_reaches_quiescent {rs : List Bool} {rest : List Event} {s : State} (hr : s.rst = false)
    (hdue : s.clocksDue ≤ rs.count true) (hs : s.stimulus = rs.map Event.clk ++ rest) :
    ∃ n t, n ≤ rs.length ∧ Host.Core.run Sys2Proof.core n s = .next t ∧ t.quiescent = true := by
  induction rs generalizing s with
  | nil => exact ⟨0, s, Nat.zero_le _, rfl, quiescent_of_clocksDue_zero (Nat.le_zero.mp hdue)⟩
  | cons r rs ih =>
    by_cases hq : s.quiescent = true
    · exact ⟨0, s, Nat.zero_le _, rfl, hq⟩
    · obtain ⟨u, hstep, hur, hus, hused⟩ := step_uses_clock hr hq hs
      have hcount : (r :: rs).count true = rs.count true + r.toNat := by cases r <;> simp
      obtain ⟨n, t, hn, hrun, hquiet⟩ := ih hur (by omega) hus
      exact ⟨n + 1, t, Nat.succ_le_succ hn, (run_succ hstep).trans hrun, hquiet⟩

/-- Settles O55: at most seven clocks are due. -/
theorem quiescentWithinSevenAcceptedClocks : Obligations.QuiescentWithinSevenAcceptedClocks :=
  fun s _ _ hr hseven hs => run_reaches_quiescent hr ((clocksDue_le_seven s).trans hseven) hs

/-! ## Presenting an operation (30_encoding.md section 2, log 2) -/

/-- The next step of `p` presents a value that decodes to `i`, after a report only if `i` is the command it offers and
before a command only if `i` is the report that offers it, and runs what it presents. -/
def State.RunsPresented (p : State) (i : Instr) : Prop :=
  ∃ before v after a b t,
    p.ready.presents p.nextEvent = before ++ v :: after ∧ decode v = .ok i ∧
    (before = [] ∨ i = .setKeyNone ∨ (∃ m, i = .setMods m) ∨ ∃ k, i = .setKey k) ∧
    (after = [] ∨ i = .emitMods ∨ i = .emitKeydn ∨ i = .emitKeyup) ∧
    runPresented before p.ready = .next a ∧ exec i a = .next b ∧ runPresented after b = .next t ∧ step p = .next t

section RunsPresented

variable {s : State}

/-- An operation presented alone. -/
theorem runsPresented_alone {e : Event} {v : Encoded} {i : Instr} {t : State}
    (hv : (s.applyPins e).presents e = [v]) (hd : decode v = .ok i) (he : exec i (s.applyPins e) = .next t) :
    (s.place e).RunsPresented i := by
  have hready : (s.place e).ready = s.applyPins e := rfl
  refine ⟨[], v, [], s.applyPins e, t, t, hv, hd, .inl rfl, .inl rfl, rfl, he, rfl, ?_⟩
  rw [step, place_nextEvent, hready, hv, runPresented_decoded _ hd, he]

/-- R76: the take of the frame pending. -/
theorem runsPresented_take {i : Instr} (r : Bool) (hi : decodeFrame s.hcFrame = i) (hr : s.rst = false)
    (hp : s.phase = .idle) (hn : s.hcCount ≠ s.lastSeen) : (s.place (.clk r)).RunsPresented i :=
  runsPresented_alone (v := .frame s.hcFrame)
    (by simp [State.presents, hr, State.clockPresents, hp, newFrame_iff.mpr hn, State.snapshot])
    (congrArg Except.ok hi) (hi ▸ exec_take_pending hr hp hn)

/-- R97: an accepting `clk` presents the phase and the word offered. -/
theorem presents_accepting_clk (hr : s.rst = false) (hp : s.phase ≠ .idle) :
    s.presents (.clk true) = [.phase s.phase.bits true, .cmd s.txWord] := by
  simp [State.presents, hr, State.clockPresents, hp]

theorem decodePhase_accepting (hp : s.phase ≠ .idle) :
    decodePhase s.phase true = .emitMods ∨ decodePhase s.phase true = .emitKeydn ∨
      decodePhase s.phase true = .emitKeyup := by
  cases hq : s.phase with
  | idle => exact absurd hq hp
  | mods => exact .inl rfl
  | keydn => exact .inr (.inl rfl)
  | keyup => exact .inr (.inr rfl)

theorem decodeCmd_command (w : CmdWord) :
    decodeCmd w = .setKeyNone ∨ (∃ m, decodeCmd w = .setMods m) ∨ ∃ k, decodeCmd w = .setKey k := by
  unfold decodeCmd
  split
  · split
    · exact .inl rfl
    · exact .inr (.inr ⟨_, rfl⟩)
  · exact .inr (.inl ⟨_, rfl⟩)

/-- The report of the phase and the command it offers are each presented, and both run, in the step that accepts. -/
theorem runsPresented_report_and_command (hr : s.rst = false) (hp : s.phase ≠ .idle) :
    (s.place (.clk true)).RunsPresented (decodePhase s.phase true) ∧
      (s.place (.clk true)).RunsPresented (decodeCmd s.txWord) := by
  have hready : (s.place (.clk true)).ready = s := rfl
  have hv := presents_accepting_clk hr hp
  have hdecode : decode (.phase s.phase.bits true) = .ok (decodePhase s.phase true) := by simp [decode]
  obtain ⟨p, m, k, hreport, hcommand⟩ := exec_report_then_command hr hp
  have hfirst := runPresented_single hdecode hreport
  have hsecond := runPresented_single (v := .cmd s.txWord) rfl hcommand
  have hstep : step (s.place (.clk true)) = .next ((s.emit s.txWord p).transmit m k) := by
    rw [step, place_nextEvent, hready, hv, runPresented_cons hdecode hreport, hsecond]
  exact ⟨⟨[], _, _, _, _, _, hv, hdecode, .inl rfl, .inr (decodePhase_accepting hp), rfl, hreport, hsecond, hstep⟩,
    ⟨[_], _, [], _, _, _, hv, rfl, .inr (decodeCmd_command s.txWord), .inl rfl, hfirst, hcommand, rfl, hstep⟩⟩

theorem runsPresented_report {i : Instr} (hi : decodePhase s.phase true = i) (hr : s.rst = false)
    (hp : s.phase ≠ .idle) : (s.place (.clk true)).RunsPresented i :=
  hi ▸ (runsPresented_report_and_command hr hp).1

theorem runsPresented_command {i : Instr} (hi : decodeCmd s.txWord = i) (hr : s.rst = false) (hp : s.phase ≠ .idle) :
    (s.place (.clk true)).RunsPresented i :=
  hi ▸ (runsPresented_report_and_command hr hp).2

/-- Log 2: the count that differs from `hc_count`. -/
theorem hcCount_ne_otherCount (s : State) : s.hcCount ≠ s.otherCount := by
  unfold State.otherCount
  split <;> omega

end RunsPresented

/-- Settles O56: an operation of its own is presented alone, a report with the command it offers, and a command with the
report that offers it. -/
theorem presentedOperationIsRun : Obligations.PresentedOperationIsRun := by
  have hruns (s : State) (i : Instr) (hwf : i.wellFormed = true) : (s.presenting i).RunsPresented i := by
    cases i with
    | edge d => exact runsPresented_alone (v := .edge d) rfl rfl (exec_edge_running d rfl)
    | reset => exact runsPresented_alone (v := .signal 1#1) rfl rfl (exec_reset _)
    | poll =>
      refine runsPresented_alone (v := .phase 0b00#2 true) ?_ rfl (exec_poll_waiting rfl rfl rfl)
      simp [State.presents, State.clockPresents, State.newFrame, State.snapshot, Phase.bits]
    | takePress scHi =>
      exact runsPresented_take true (decodeFrame_frameOf_press scHi) rfl rfl (hcCount_ne_otherCount s)
    | takeRelease scHi =>
      exact runsPresented_take true (decodeFrame_frameOf_release scHi) rfl rfl (hcCount_ne_otherCount s)
    | emitMods => exact runsPresented_report rfl rfl (by nofun)
    | emitKeydn => exact runsPresented_report rfl rfl (by nofun)
    | emitKeyup => exact runsPresented_report rfl rfl (by nofun)
    | hold p =>
      have hp : p ≠ .idle := by simpa [Instr.wellFormed] using hwf
      refine runsPresented_alone (v := .phase p.bits false) ?_ ?_ (exec_hold_phase rfl hp rfl)
      · simp [State.presents, State.clockPresents, hp]
      · simp [decode, decodePhase_hold hp]
    | setMods m => exact runsPresented_command (decodeCmd_setMods m) rfl (by nofun)
    | setKey k =>
      have hk : k ≠ noKey := by simpa [Instr.wellFormed] using hwf
      exact runsPresented_command ((decodeCmd_setKey k).trans (if_neg hk)) rfl (by nofun)
    | setKeyNone => exact runsPresented_command (decodeCmd_setKey noKey) rfl (by nofun)
  exact hruns

end Sys2Proof.Machine
